-- ==== Sys2Proof/Word.lean ====
section
/-! DEFINITION. The two register and memory widths of the FBP: one byte (spec/10_state.md R10, R18,
R19) and one `XLEN = 16` bit register (spec/00_scope.md R5). -/

namespace Sys2Proof

/-- One unit of the three byte memories, the command byte and the status byte. -/
abbrev Byte := BitVec 8

/-- An operand or result register, unsigned (R5). -/
abbrev Word := BitVec 16

end Sys2Proof
end

