-- ==== Sys2Proof/Syntax.lean ====
section
/-! DEFINITION. The commands: one constructor for each row of spec/opcode_table.json. -/

namespace Sys2Proof

/-- A command of the FBP (spec/30_encoding.md R56). No command has an operand (R53); the two reserved
rows carry the value of their `MODE` field, whose low bits the row leaves free. -/
inductive Instr where
  /-- `ENC.MONO`, byte 0x10. -/
  | encMono
  /-- `ENC.GRAY4`, byte 0x11. -/
  | encGray4
  /-- `ENC.PART`, byte 0x12. -/
  | encPart
  /-- `ENC.FAST`, byte 0x13. -/
  | encFast
  /-- `ENC.RSVD4`, bytes 0x14 to 0x17: `mode` is the `MODE` field, 4 to 7. -/
  | encRsvd4 (mode : BitVec 4)
  /-- `ENC.RSVD8`, bytes 0x18 to 0x1F: `mode` is the `MODE` field, 8 to 15. -/
  | encRsvd8 (mode : BitVec 4)
  /-- `RES`, byte 0x20. -/
  | res
deriving DecidableEq, Repr

end Sys2Proof
end

