-- ==== Sys2Proof/WellFormed.lean ====
section
/-! DEFINITION. Which commands have an encoding: the reserved rows' `MODE` field lies in the row's own
range (spec/30_encoding.md R54, R56). -/

namespace Sys2Proof

/-- The command is one that some command byte stands for. -/
def Instr.wellFormed : Instr → Bool
  | .encMono => true
  | .encGray4 => true
  | .encPart => true
  | .encFast => true
  | .encRsvd4 mode => decide (4 ≤ mode.toNat ∧ mode.toNat ≤ 7)
  | .encRsvd8 mode => decide (8 ≤ mode.toNat)
  | .res => true

end Sys2Proof
end

