-- ==== Sys2Proof/Decode.lean ====
section
/-! DEFINITION. The command byte: its two fields, the decoder, the encoder, and the opcode map of
spec/30_encoding.md R56 as a table of its own. -/

namespace Sys2Proof

/-- Why a byte is no command: the default row of R56 (R55). -/
inductive DecodeReject where
  | illegalCommand
deriving DecidableEq, Repr

/-- What the decoder makes of a byte. -/
inductive Decoded where
  | instr (i : Instr)
  | rejected (why : DecodeReject)
deriving DecidableEq, Repr

/-- `OP`, bits 7:4 of the command byte (R50). -/
def opField (c : Byte) : BitVec 4 := c.extractLsb' 4 4

/-- `MODE`, bits 3:0 of the command byte (R50). -/
def modeField (c : Byte) : BitVec 4 := c.extractLsb' 0 4

/-- The ENCODE class, by its `MODE` (R52, R54). -/
def decodeEncode (mode : BitVec 4) : Instr :=
  if mode = 0#4 then .encMono
  else if mode = 1#4 then .encGray4
  else if mode = 2#4 then .encPart
  else if mode = 3#4 then .encFast
  else if mode.toNat ≤ 7 then .encRsvd4 mode
  else .encRsvd8 mode

/-- The decoder, total on bytes (R51, R52, R54, R55). It reads nothing but the byte (R57). -/
def decode (c : Byte) : Decoded :=
  if opField c = 1#4 then .instr (decodeEncode (modeField c))
  else if opField c = 2#4 then
    if modeField c = 0#4 then .instr .res else .rejected .illegalCommand
  else .rejected .illegalCommand

/-- A command byte from its two fields (R50). -/
def commandOf (op mode : BitVec 4) : Byte := op ++ mode

/-- The encoder (R51, R52, R54). -/
def encode : Instr → Byte
  | .encMono => commandOf 1#4 0#4
  | .encGray4 => commandOf 1#4 1#4
  | .encPart => commandOf 1#4 2#4
  | .encFast => commandOf 1#4 3#4
  | .encRsvd4 mode => commandOf 1#4 mode
  | .encRsvd8 mode => commandOf 1#4 mode
  | .res => commandOf 2#4 0#4

/-- A named row of the opcode map of R56: byte `c` selects it when `c AND mask = bits`. -/
structure OpcodeRow where
  mnemonic : String
  bits : Byte
  mask : Byte
deriving DecidableEq, Repr

/-- The named rows of R56, in its order. -/
def opcodeMap : List OpcodeRow :=
  [⟨"ENC.MONO", 0x10, 0xFF⟩, ⟨"ENC.GRAY4", 0x11, 0xFF⟩, ⟨"ENC.PART", 0x12, 0xFF⟩,
   ⟨"ENC.FAST", 0x13, 0xFF⟩, ⟨"ENC.RSVD4", 0x14, 0xFC⟩, ⟨"ENC.RSVD8", 0x18, 0xF8⟩,
   ⟨"RES", 0x20, 0xFF⟩]

/-- Byte `c` selects the row. -/
def OpcodeRow.selects (r : OpcodeRow) (c : Byte) : Bool := c &&& r.mask == r.bits

/-- The mnemonic of the row a command stands for. -/
def mnemonicOf : Instr → String
  | .encMono => "ENC.MONO"
  | .encGray4 => "ENC.GRAY4"
  | .encPart => "ENC.PART"
  | .encFast => "ENC.FAST"
  | .encRsvd4 _ => "ENC.RSVD4"
  | .encRsvd8 _ => "ENC.RSVD8"
  | .res => "RES"

/-- The command byte held by the first `nbits` bits of the number `w`; a command is one byte (R50). -/
def commandByte (nbits w : Nat) : Byte := BitVec.ofNat 8 (w % 2 ^ nbits)

/-- The command the decoder reads from an instruction whose bits are `w`. -/
def decodeTableWord (nbits w : Nat) : Option Instr :=
  match decode (commandByte nbits w) with
  | .instr i => some i
  | .rejected _ => none

end Sys2Proof
end

