-- ==== Sys2Proof/Config.lean ====
section
/-! DEFINITION. What this hardware fixes (spec/00_scope.md section 4, spec/92_eei_decisions.md "Open
parameters"), and the free values: constants without a body, for what the spec leaves open. -/

namespace Sys2Proof

/-- The four refresh modes, "{Monochrome, FourGray, Partial, Fast}" (spec/30_encoding.md R52). -/
inductive Mode where
  | monochrome
  | fourGray
  | partialRefresh
  | fast
deriving DecidableEq, Repr

/-- The five byte sequences of one waveform table (spec/45_host_controller.md R121, R122). -/
inductive LutFunction where
  | vcom
  | ww
  | bw
  | wb
  | bb
deriving DecidableEq, Repr

/-- One call of the Transport, the host's link to the panel (R120). -/
inductive TransportCall where
  | sendCommand (code : Byte)
  | sendData (b : Byte)
  | resetPanel
  | waitIdle
  | moduleInit
  | moduleExit
deriving DecidableEq, Repr

namespace Config

/-- `PANEL_W` (R2). -/
def panelW : Nat := 400

/-- `PANEL_H` (R2). -/
def panelH : Nat := 300

/-- `THRESH`, the bilevel cutoff (R3; unaudited literal, U9). -/
def thresh : Nat := 80

/-- `GRAN`, pixels in one byte of a plane (R4). -/
def gran : Nat := 8

/-- `MAXPIX`, the capacity of `SRC` (D10). -/
def maxPix : Nat := panelW * panelH

/-- `MAXPLANE`, the capacity of each of `P0` and `P1` (D10). -/
def maxPlane : Nat := maxPix / 8

/-- The two documented values of `RES_ROT_MAP` (D16, U16). -/
inductive RotMap where
  | swap
  | swapFlip
deriving DecidableEq, Repr

/-- `RES_ROT_MAP`: this hardware takes `swap` (spec/42_resolve.md R94). -/
def resRotMap : RotMap := .swap

/-- FREE VALUE (notes/assumptions/1.md). What byte `a` of `SRC` holds while the host has not written
it since the `n`-th reset: R21 leaves it unspecified, U4 allows any value. -/
opaque unwrittenSrc : (n a : Nat) → Byte

/-- FREE VALUE (notes/assumptions/8.md). The "unspecified 16-bit number" that the host's `n`-th read
returns when it reads a result register without a value (R15, U6). -/
opaque unspecifiedWord : (n : Nat) → Word

/-- FREE VALUE (notes/assumptions/8.md). The "unspecified byte" that the host's `n`-th read returns when
it reads a plane byte without a value (R19, U5, U7). -/
opaque unspecifiedByte : (n : Nat) → Byte

/-! Open values of the environment (spec/45_host_controller.md), read by Machine/Controller.lean only. -/

/-- FREE VALUE: `RF_ORIENT_INIT`, whether the Retained Frame is created transposed (R112, N14). -/
opaque rfTransposedInit : Bool

/-- FREE VALUE: the "fixed vendor init command sequence" (R113, N17). -/
opaque initSequence : List TransportCall

/-- FREE VALUE: the "vendor sleep sequence" (R118, N17). -/
opaque sleepSequence : List TransportCall

/-- FREE VALUE: the waveform tables, "opaque constant data" (R122, N17). -/
opaque lutBytes : Mode → LutFunction → List Byte

/-- FREE VALUE: the data bytes that follow panel command 0x90 for the window `x, y, x_end, y_end`
(R117, N18). -/
opaque windowBytes : (x y xEnd yEnd : Word) → List Byte

end Config

end Sys2Proof
end

