-- ==== Sys2Proof/Machine/State.lean ====
section
/-! DEFINITION. The state of the FBP (spec/10_state.md), the host's side of its interface
(spec/30_encoding.md R58), the reasons to stop, and the state after reset (R21). -/

namespace Sys2Proof.Machine

/-- A byte memory: the bytes that hold a value, as (index, byte) pairs. An index that is not listed
holds no value (R19, R21). -/
abbrev Memory := List Host.Cell

/-- The canonical form: indices strictly rising. (No entry can equal what an unlisted index reads as,
since that is no value.) -/
abbrev Memory.wf (m : Memory) : Prop := m.Pairwise (fun p q => p.1 < q.1)

/-- Every listed index lies in a space of `cap` bytes (spec/20_memory.md R30). -/
abbrev Memory.below (m : Memory) (cap : Nat) : Prop := ∀ p ∈ m, p.1 < cap

/-- The two plane memories. -/
inductive Plane where
  | p0
  | p1
deriving DecidableEq, Repr

/-- The error kinds the FBP raises (spec/60_exceptions.md R140). -/
inductive ErrorKind where
  | invalidMode
  | sizeMismatch
  | regionOutOfBounds
  | illegalCommand
deriving DecidableEq, Repr

/-- The 18 registers (R10). -/
inductive Reg where
  | cmd
  | status
  | srcW
  | srcH
  | tgtW
  | tgtH
  | xStart
  | yStart
  | picW
  | picH
  | rfW
  | rfH
  | winX
  | winY
  | winXEnd
  | winYEnd
  | picWAl
  | picHAl
deriving DecidableEq, Repr

/-- The ENC operand registers, numbers 2 to 5 (R13). -/
structure EncRegs where
  srcW : Word
  srcH : Word
  tgtW : Word
  tgtH : Word
deriving DecidableEq, Repr

/-- The RES operand registers, numbers 6 to 11 (R14). -/
structure ResRegs where
  xStart : Word
  yStart : Word
  picW : Word
  picH : Word
  rfW : Word
  rfH : Word
deriving DecidableEq, Repr

/-- The RES result registers, numbers 12 to 17 (R15). -/
structure WinRegs where
  winX : Word
  winY : Word
  winXEnd : Word
  winYEnd : Word
  picWAl : Word
  picHAl : Word
deriving DecidableEq, Repr

/-- The fields of `STATUS` (R12). `err` is `none` for code 0. The reserved bits 7:6 are no field: they
"read as 0", and the host cannot write the register. -/
structure Status where
  err : Option ErrorKind
  errLatch : Bool
  pValid : Bool
  resValid : Bool
deriving DecidableEq, Repr

/-- What the outside may do to the FBP between commands: the host's transactions (R58), a host write
to a plane (R19, U21), and the platform's reset (spec/70_reset_and_hazards.md R160). Register numbers
and indices are unbounded here, so that an access to what does not exist can be written down (U8). -/
inductive Transaction where
  /-- `WR <reg>, <value>`. -/
  | wr (reg : Nat) (value : Word)
  /-- `RD <reg>`. -/
  | rd (reg : Nat)
  /-- `WS <index>, <byte>`. -/
  | ws (index : Nat) (value : Byte)
  /-- `RS <index>`. -/
  | rs (index : Nat)
  /-- `RP0 <index>`, `RP1 <index>`. -/
  | rp (plane : Plane) (index : Nat)
  /-- A host write to `P0` or `P1`, which is ignored. -/
  | wp (plane : Plane) (index : Nat) (value : Byte)
  /-- `CMD <byte>`. -/
  | cmd (c : Byte)
  /-- The platform's reset. -/
  | reset
deriving DecidableEq, Repr

/-- What a host read returned: registers 0 and 1 and the memories are 8 bits wide, the other registers
16 (R10). -/
inductive Reading where
  | byte (v : Byte)
  | word (v : Word)
deriving DecidableEq, Repr

/-- Why the machine stops with a fault: it never does. What the spec calls a fault is a run that "carries a
fault bit that is never cleared" and goes on (spec/93_implementation_defined.md Part 1): the field
`faulted` of `State`, which is safe (notes/assumptions/8.md). -/
inductive Fault where
deriving DecidableEq, Repr

/-- Why a step has no meaning. All are safe: nothing is claimed of such a run. -/
inductive Refusal where
  /-- An instruction without a meaning, by its mnemonic. Raised by no arm of Dispatch.lean. -/
  | notModelled (mnemonic : String)
  /-- ENC, sizes matching, `TGT_W mod 8` not 0 (spec/41_encode.md R69 (a), U1). -/
  | targetWidthUnaligned
  /-- ENC, sizes matching, `TGT_W * TGT_H` above `MAXPIX` (R69 (b), U2). -/
  | targetTooLarge
  /-- `RES` with `PIC_W = 0` or `PIC_H = 0` (spec/42_resolve.md R98, U3). -/
  | emptyPastedImage
  /-- A host access to a register number above 17 (R22, U8). -/
  | noSuchRegister
  /-- A host access to a memory index outside its space (R31, U8). -/
  | noSuchIndex
  /-- A host write to the 8-bit register 0 of a value that is no byte (notes/assumptions/6.md). -/
  | commandNotAByte
deriving DecidableEq, Repr

/-- The machine. The first seven fields are the block's own state; `resets` is the model's count behind
the free value of unwritten `SRC` bytes; `faulted` is the fault bit of the run
(spec/93_implementation_defined.md Part 1); `script` and `returned` are the host's side: the transactions
still to come, the next one first, and what its reads returned, the latest first. -/
structure State where
  enc : EncRegs
  res : ResRegs
  win : WinRegs
  status : Status
  src : Memory
  p0 : Memory
  p1 : Memory
  resets : Nat
  faulted : Bool
  script : List Transaction
  returned : List Reading
deriving DecidableEq, Repr

/-- The state after reset (R21, R160). The result registers hold no value then (`RES_VALID = 0`) and a
read does not show what stands in them; the zeros are notes/assumptions/2.md. -/
def State.reset : State where
  enc := ⟨0, 0, 0, 0⟩
  res := ⟨0, 0, 0, 0, 0, 0⟩
  win := ⟨0, 0, 0, 0, 0, 0⟩
  status := ⟨none, false, false, false⟩
  src := []
  p0 := []
  p1 := []
  resets := 0
  faulted := false
  script := []
  returned := []

end Sys2Proof.Machine
end

