-- ==== Sys2Proof/Machine/Flags.lean ====
section
/-! DEFINITION. The fields of `STATUS`: their codes, the byte the host reads, and the three ways a
command writes them (spec/10_state.md R12, R16). -/

namespace Sys2Proof.Machine

/-- The codes of the error kinds (spec/60_exceptions.md R140). -/
def ErrorKind.code : ErrorKind → BitVec 3
  | .invalidMode => 1#3
  | .sizeMismatch => 2#3
  | .regionOutOfBounds => 3#3
  | .illegalCommand => 4#3

/-- The field `ERR` (R12). -/
def errField : Option ErrorKind → BitVec 3
  | none => 0#3
  | some e => e.code

/-- The byte a host read of `STATUS` returns (R12): bits 7:6 zero, then `RES_VALID`, `P_VALID`,
`ERR_LATCH`, `ERR`. -/
def Status.byte (st : Status) : Byte :=
  0#2 ++ BitVec.ofBool st.resValid ++ BitVec.ofBool st.pValid ++ BitVec.ofBool st.errLatch
    ++ errField st.err

/-- `raise E` (R143): `ERR` and `ERR_LATCH` are set, and the valid bit of the command's unit is
cleared. IllegalCommand starts no unit and clears neither (R146). -/
def Status.raise (e : ErrorKind) (st : Status) : Status :=
  match e with
  | .invalidMode => { st with err := some e, errLatch := true, pValid := false }
  | .sizeMismatch => { st with err := some e, errLatch := true, pValid := false }
  | .regionOutOfBounds => { st with err := some e, errLatch := true, resValid := false }
  | .illegalCommand => { st with err := some e, errLatch := true }

/-- An ENC command succeeded: `P_VALID <- 1`, `ERR <- 0`, "ERR_LATCH is left as it was" (R71). -/
def Status.encoded (st : Status) : Status := { st with err := none, pValid := true }

/-- `RES` succeeded: `RES_VALID <- 1`, `ERR <- 0`, "ERR_LATCH is left as it was" (R91). -/
def Status.resolved (st : Status) : Status := { st with err := none, resValid := true }

end Sys2Proof.Machine
end

