-- ==== Sys2Proof/Machine/Ops.lean ====
section
/-! DEFINITION. The operations every meaning is built from: one byte of a memory, one register, raising
an error, completing a command. -/

namespace Sys2Proof.Machine

/-! ### Memories (spec/20_memory.md R31) -/

/-- The byte at index `a`, `none` where the index holds no value. -/
def Memory.read : Memory → Nat → Option Byte
  | [], _ => none
  | (k, v) :: m, a => if a = k then some v else Memory.read m a

/-- `MemWrite(SPACE, a, 1, v)`, keeping the canonical form. -/
def Memory.write : Memory → Nat → Byte → Memory
  | [], a, v => [(a, v)]
  | (k, w) :: m, a, v =>
    if a < k then (a, v) :: (k, w) :: m
    else if a = k then (a, v) :: m
    else (k, w) :: Memory.write m a v

/-- Bit `j` of byte `v` set to `b`, the other seven left (spec/00_scope.md section 5). -/
def putBit (v : Byte) (j : Nat) (b : Bool) : Byte :=
  if b then v ||| (1#8 <<< j) else v &&& ~~~(1#8 <<< j)

/-- `SPACE[a][j] <- b`. The seven other bits of a byte that holds no value yet are taken as 0, which no
command can show (R77, notes/assumptions/3.md). -/
def Memory.putBit (m : Memory) (a j : Nat) (b : Bool) : Memory :=
  m.write a (Machine.putBit ((m.read a).getD 0#8) j b)

/-- The sample the FBP finds at index `a` of `SRC`: the byte the host wrote, or the free value of a
byte it has not written since reset (R21, U4, notes/assumptions/1.md). -/
def State.sample (s : State) (a : Nat) : Byte :=
  (s.src.read a).getD (Config.unwrittenSrc s.resets a)

/-- A plane's memory. -/
def State.plane (s : State) : Plane → Memory
  | .p0 => s.p0
  | .p1 => s.p1

/-! ### Registers (spec/10_state.md R10, R22) -/

/-- A register's number. -/
def Reg.number : Reg → Nat
  | .cmd => 0
  | .status => 1
  | .srcW => 2
  | .srcH => 3
  | .tgtW => 4
  | .tgtH => 5
  | .xStart => 6
  | .yStart => 7
  | .picW => 8
  | .picH => 9
  | .rfW => 10
  | .rfH => 11
  | .winX => 12
  | .winY => 13
  | .winXEnd => 14
  | .winYEnd => 15
  | .picWAl => 16
  | .picHAl => 17

/-- The registers in the order of their numbers. -/
def allRegs : List Reg :=
  [.cmd, .status, .srcW, .srcH, .tgtW, .tgtH, .xStart, .yStart, .picW, .picH, .rfW, .rfH,
   .winX, .winY, .winXEnd, .winYEnd, .picWAl, .picHAl]

/-- The register with a number; none above 17. -/
def Reg.ofNumber (n : Nat) : Option Reg := allRegs[n]?

/-- Registers 12 to 17, which hold a value only while `RES_VALID = 1` (R15). -/
def Reg.isResult : Reg → Bool
  | .winX => true
  | .winY => true
  | .winXEnd => true
  | .winYEnd => true
  | .picWAl => true
  | .picHAl => true
  | _ => false

/-- What stands in a register. `CMD` "stores nothing: a host read of `CMD` returns 0" (R11). Whether a
result register holds a value is the question of `State.regValue`. -/
def State.readReg (s : State) : Reg → Reading
  | .cmd => .byte 0#8
  | .status => .byte s.status.byte
  | .srcW => .word s.enc.srcW
  | .srcH => .word s.enc.srcH
  | .tgtW => .word s.enc.tgtW
  | .tgtH => .word s.enc.tgtH
  | .xStart => .word s.res.xStart
  | .yStart => .word s.res.yStart
  | .picW => .word s.res.picW
  | .picH => .word s.res.picH
  | .rfW => .word s.res.rfW
  | .rfH => .word s.res.rfH
  | .winX => .word s.win.winX
  | .winY => .word s.win.winY
  | .winXEnd => .word s.win.winXEnd
  | .winYEnd => .word s.win.winYEnd
  | .picWAl => .word s.win.picWAl
  | .picHAl => .word s.win.picHAl

/-- The value a register holds; the result registers hold none while `RES_VALID = 0` (R15). -/
def State.regValue (s : State) (r : Reg) : Option Reading :=
  if r.isResult && !s.status.resValid then none else some (s.readReg r)

/-- The value a byte of a plane holds; it holds none while `P_VALID = 0`, nor at or above `N` (R19). -/
def State.planeValue (s : State) (p : Plane) (a : Nat) : Option Byte :=
  if s.status.pValid then (s.plane p).read a else none

/-- A host write to a register other than `CMD`: the ten operand registers take the value, `STATUS` and
the result registers ignore it (R12, R15, R22). -/
def State.writeReg (s : State) (r : Reg) (v : Word) : State :=
  match r with
  | .cmd => s
  | .status => s
  | .srcW => { s with enc := { s.enc with srcW := v } }
  | .srcH => { s with enc := { s.enc with srcH := v } }
  | .tgtW => { s with enc := { s.enc with tgtW := v } }
  | .tgtH => { s with enc := { s.enc with tgtH := v } }
  | .xStart => { s with res := { s.res with xStart := v } }
  | .yStart => { s with res := { s.res with yStart := v } }
  | .picW => { s with res := { s.res with picW := v } }
  | .picH => { s with res := { s.res with picH := v } }
  | .rfW => { s with res := { s.res with rfW := v } }
  | .rfH => { s with res := { s.res with rfH := v } }
  | .winX => s
  | .winY => s
  | .winXEnd => s
  | .winYEnd => s
  | .picWAl => s
  | .picHAl => s

/-! ### Ending a command -/

/-- Taking an error (spec/60_exceptions.md R143): `STATUS` changes and "Nothing else changes". There is
no handler and no return from it: the FBP "is idle and accepts the next command" (R149). -/
def State.raise (s : State) (e : ErrorKind) : State :=
  { s with status := s.status.raise e }

/-- The end of a successful ENC command: the planes hold its result and nothing else (R71, D24). -/
def State.completeEncode (s : State) (p0 p1 : Memory) : State :=
  { s with p0 := p0, p1 := p1, status := s.status.encoded }

/-- The end of a successful `RES` (R91). -/
def State.completeResolve (s : State) (w : WinRegs) : State :=
  { s with win := w, status := s.status.resolved }

end Sys2Proof.Machine
end

