-- ==== Sys2Proof/Machine/Operands.lean ====
section
/-! DEFINITION. What the two units compute from their operands, over exact natural numbers (spec/00_scope.md
R5): roundings, the quantiser, the orientation, where a pixel goes, and the partial window. -/

namespace Sys2Proof.Machine

/-! ### Roundings (spec/00_scope.md section 5) -/

/-- `floor8(v)`: the largest multiple of 8 not above `v`. -/
def floor8 (v : Nat) : Nat := v - v % Config.gran

/-- `ceil8(v) = floor8(v + 7)`: the smallest multiple of 8 not below `v`. -/
def ceil8 (v : Nat) : Nat := floor8 (v + (Config.gran - 1))

/-! ### ENC (spec/41_encode.md) -/

/-- The mode a `MODE` field stands for; none for the reserved codes (spec/30_encoding.md R52). -/
def modeOf (m : BitVec 4) : Option Mode :=
  if m = 0#4 then some .monochrome
  else if m = 1#4 then some .fourGray
  else if m = 2#4 then some .partialRefresh
  else if m = 3#4 then some .fast
  else none

/-- The hard threshold: 255 at or above `THRESH`, else 0 (R66). -/
def threshold (v : Byte) : Byte := if Config.thresh ≤ v.toNat then 255#8 else 0#8

/-- The quantiser `q(m, v)` (R66). -/
def quantise (m : Mode) (v : Byte) : Byte :=
  match m with
  | .monochrome => threshold v
  | .fourGray => v
  | .partialRefresh => threshold v
  | .fast => threshold v

/-- The bit of a quantised sample that a plane takes: bit 7 for `P0`, bit 6 for `P1`, in every mode and
orientation (R67). -/
def planeBit : Plane → Byte → Bool
  | .p0, u => u.getLsbD 7
  | .p1, u => u.getLsbD 6

/-- The two orientations. -/
inductive Orient where
  | direct
  | rotated
deriving DecidableEq, Repr

/-- The orientation test, Direct first (R68); `none` is a size mismatch. -/
def orientation (sw sh w h : Nat) : Option Orient :=
  if sw = w ∧ sh = h then some .direct
  else if sw = h ∧ sh = w then some .rotated
  else none

/-- The target column of source pixel `(x, y)` (R70). -/
def targetCol (o : Orient) (x y : Nat) : Nat :=
  match o with
  | .direct => x
  | .rotated => y

/-- The target row of source pixel `(x, y)` for a target of height `h` (R70). -/
def targetRow (o : Orient) (h x y : Nat) : Nat :=
  match o with
  | .direct => y
  | .rotated => h - x - 1

/-- The byte of a plane that holds the pixel at column `c`, row `r` (spec/20_memory.md R33). -/
def bytePos (c r w : Nat) : Nat := (c + r * w) / Config.gran

/-- The bit inside that byte: the leftmost of its 8 pixels is bit 7 (R33). -/
def bitPos (c : Nat) : Nat := 7 - c % Config.gran

/-- `N`, the bytes of each plane that an ENC command produces (R34). -/
def planeLength (w h : Nat) : Nat := w * h / 8

/-! ### RES (spec/42_resolve.md) -/

/-- A window with its sizes, before it is put into the result registers. -/
structure Window where
  x : Nat
  y : Nat
  xEnd : Nat
  yEnd : Nat
  w : Nat
  h : Nat
deriving DecidableEq, Repr

/-- The orientation test of RES: the stored size is the transposed panel resolution (R92). -/
def frameTransposed (r : ResRegs) : Bool :=
  decide (r.rfW.toNat = Config.panelH ∧ r.rfH.toNat = Config.panelW)

/-- A window from its start and sizes, both ends inclusive (R95). -/
def windowFrom (x y w h : Nat) : Window := ⟨x, y, x + w - 1, y + h - 1, w, h⟩

/-- The aligned window, roles swapped when the frame is transposed (R93, R94, R95). -/
def alignedWindow (r : ResRegs) : Window :=
  if frameTransposed r then
    windowFrom (floor8 r.yStart.toNat) r.xStart.toNat (ceil8 r.picH.toNat) r.picW.toNat
  else
    windowFrom (floor8 r.xStart.toNat) r.yStart.toNat (ceil8 r.picW.toNat) r.picH.toNat

/-- The window passes the panel's edge (R96). -/
def pastEdge (w : Window) : Bool :=
  decide (Config.panelW - 1 < w.xEnd) || decide (Config.panelH - 1 < w.yEnd)

/-- The rows of an in-bounds window under `RES_ROT_MAP` (D16): `swap` leaves them; `swap_flip` mirrors
the pair of a transposed frame, with the same rejected inputs. -/
def placeRows (map : Config.RotMap) (r : ResRegs) (w : Window) : Window :=
  match map with
  | .swap => w
  | .swapFlip =>
    if frameTransposed r then
      { w with
        y := Config.panelH - r.xStart.toNat - r.picW.toNat
        yEnd := Config.panelH - r.xStart.toNat - 1 }
    else w

/-- The six result registers of a window. -/
def Window.toRegs (w : Window) : WinRegs :=
  ⟨BitVec.ofNat 16 w.x, BitVec.ofNat 16 w.y, BitVec.ofNat 16 w.xEnd, BitVec.ofNat 16 w.yEnd,
   BitVec.ofNat 16 w.w, BitVec.ofNat 16 w.h⟩

end Sys2Proof.Machine
end

