-- ==== Sys2Proof/Machine/Encode.lean ====
section
/-! DEFINITION. The ENCODE family (spec/41_encode.md). -/

namespace Sys2Proof.Machine

/-- The size operands of an ENC command as numbers, and the orientation found. -/
structure Geometry where
  sw : Nat
  sh : Nat
  w : Nat
  h : Nat
  orient : Orient
deriving DecidableEq, Repr

/-- The source pixels, `y` outside and `x` inside, as R71 visits them; the order is immaterial (R77). -/
def pixels (sw sh : Nat) : List (Nat × Nat) :=
  (List.range sh).flatMap fun y => (List.range sw).map fun x => (x, y)

/-- The body of R71's loop for one plane and one pixel. -/
def packPixel (g : Geometry) (mode : Mode) (sample : Nat → Byte) (p : Plane) (m : Memory)
    (xy : Nat × Nat) : Memory :=
  let c := targetCol g.orient xy.1 xy.2
  let r := targetRow g.orient g.h xy.1 xy.2
  m.putBit (bytePos c r g.w) (bitPos c)
    (planeBit p (quantise mode (sample (xy.1 + xy.2 * g.sw))))

/-- Step 3 of R71 for one plane: every pixel of `px` packed into `m`. -/
def packOver (g : Geometry) (mode : Mode) (sample : Nat → Byte) (p : Plane) (m : Memory)
    (px : List (Nat × Nat)) : Memory :=
  px.foldl (packPixel g mode sample p) m

/-- A plane's result. It starts from a plane that holds no value: bytes at `N` and above hold none after
the command (D24), and those below `N` cannot show what was there (R77). -/
def packPlane (g : Geometry) (mode : Mode) (sample : Nat → Byte) (p : Plane) : Memory :=
  packOver g mode sample p [] (pixels g.sw g.sh)

/-- Steps 2 and 3 of R71, for a mode of the four: the sizes, the admitted geometry (R69), the planes. -/
def encodeMode (mode : Mode) (s : State) : Host.Outcome State Fault Refusal :=
  let sw := s.enc.srcW.toNat
  let sh := s.enc.srcH.toNat
  let w := s.enc.tgtW.toNat
  let h := s.enc.tgtH.toNat
  match orientation sw sh w h with
  | none => .next (s.raise .sizeMismatch)
  | some o =>
    if w % Config.gran ≠ 0 then .refused .targetWidthUnaligned
    else if Config.maxPix < w * h then .refused .targetTooLarge
    else
      .next (s.completeEncode
        (packPlane ⟨sw, sh, w, h, o⟩ mode s.sample .p0)
        (packPlane ⟨sw, sh, w, h, o⟩ mode s.sample .p1))

/-- The common body `ENCODE(m)` of R71; its first step rejects a mode that is not one of the four. -/
def encodeBody (m : BitVec 4) (s : State) : Host.Outcome State Fault Refusal :=
  match modeOf m with
  | none => .next (s.raise .invalidMode)
  | some mode => encodeMode mode s

/-- `ENC.MONO` (R72): `ENCODE(0)`. -/
def execEncMono (s : State) : Host.Outcome State Fault Refusal := encodeBody 0#4 s

/-- `ENC.GRAY4` (R73): `ENCODE(1)`. -/
def execEncGray4 (s : State) : Host.Outcome State Fault Refusal := encodeBody 1#4 s

/-- `ENC.PART` (R74): `ENCODE(2)`. -/
def execEncPart (s : State) : Host.Outcome State Fault Refusal := encodeBody 2#4 s

/-- `ENC.FAST` (R75): `ENCODE(3)`. -/
def execEncFast (s : State) : Host.Outcome State Fault Refusal := encodeBody 3#4 s

/-- `ENC.RSVD4` (R76): `ENCODE(mode)`, `mode` 4 to 7. -/
def execEncRsvd4 (mode : BitVec 4) (s : State) : Host.Outcome State Fault Refusal :=
  encodeBody mode s

/-- `ENC.RSVD8` (R76): `ENCODE(mode)`, `mode` 8 to 15. -/
def execEncRsvd8 (mode : BitVec 4) (s : State) : Host.Outcome State Fault Refusal :=
  encodeBody mode s

/-! ### The closed form of R78, for statements -/

/-- The index in `SRC` of the sample behind bit `j` of byte `k` of a plane (R78). -/
def gatherIndex (g : Geometry) (k j : Nat) : Nat :=
  let l := 8 * k + (7 - j)
  let c := l % g.w
  let r := l / g.w
  match g.orient with
  | .direct => c + r * g.w
  | .rotated => (g.h - 1 - r) + c * g.h

/-- Bit `j` of byte `k` of a plane (R78). -/
def gatherBit (g : Geometry) (mode : Mode) (sample : Nat → Byte) (p : Plane) (k j : Nat) : Bool :=
  planeBit p (quantise mode (sample (gatherIndex g k j)))

end Sys2Proof.Machine
end

