-- ==== Sys2Proof/Machine/Resolve.lean ====
section
/-! DEFINITION. The RESOLVE family (spec/42_resolve.md). -/

namespace Sys2Proof.Machine

/-- `RES` under a given `RES_ROT_MAP` (R91): an empty image has no meaning, a window past the panel's
edge raises RegionOutOfBounds, and otherwise the six result registers take the window. -/
def resolveUnder (map : Config.RotMap) (s : State) : Host.Outcome State Fault Refusal :=
  if s.res.picW.toNat = 0 ∨ s.res.picH.toNat = 0 then .refused .emptyPastedImage
  else if pastEdge (alignedWindow s.res) then .next (s.raise .regionOutOfBounds)
  else .next (s.completeResolve (placeRows map s.res (alignedWindow s.res)).toRegs)

/-- `RES` (R91). -/
def execRes (s : State) : Host.Outcome State Fault Refusal := resolveUnder Config.resRotMap s

end Sys2Proof.Machine
end

