-- ==== Sys2Proof/Machine/Dispatch.lean ====
section
/-! DEFINITION. One arm for each command (spec/30_encoding.md R56). -/

namespace Sys2Proof.Machine

def exec (i : Instr) (s : State) : Host.Outcome State Fault Refusal :=
  match i with
  | .encMono => Sys2Proof.Machine.execEncMono s
  | .encGray4 => Sys2Proof.Machine.execEncGray4 s
  | .encPart => Sys2Proof.Machine.execEncPart s
  | .encFast => Sys2Proof.Machine.execEncFast s
  | .encRsvd4 mode => Sys2Proof.Machine.execEncRsvd4 mode s
  | .encRsvd8 mode => Sys2Proof.Machine.execEncRsvd8 mode s
  | .res => Sys2Proof.Machine.execRes s

end Sys2Proof.Machine
end

