-- ==== Sys2Proof/Machine/Transact.lean ====
section
/-! DEFINITION. The host's transactions (spec/30_encoding.md R58) and the platform's reset, each one
step, and the script notation's pseudo-instructions (R59). -/

namespace Sys2Proof.Machine

/-- A byte written to `CMD` (spec/10_state.md R11): the command it encodes runs to completion, or the
decoder raises IllegalCommand (R55) without reading anything (R57). -/
def command (c : Byte) (s : State) : Host.Outcome State Fault Refusal :=
  match decode c with
  | .instr i => exec i s
  | .rejected .illegalCommand => .next (s.raise .illegalCommand)

/-- A read hands a value to the host and changes nothing in the block (spec/20_memory.md R39). -/
def State.give (s : State) (v : Reading) : State := { s with returned := v :: s.returned }

/-- `WR`: register 0 runs a command, and every other register is written or ignores the write (R22). -/
def hostWrite (n : Nat) (v : Word) (s : State) : Host.Outcome State Fault Refusal :=
  match Reg.ofNumber n with
  | none => .refused .noSuchRegister
  | some .cmd => if v.toNat < 256 then command (v.setWidth 8) s else .refused .commandNotAByte
  | some r => .next (s.writeReg r v)

/-- A read of something that may hold no value. Then the hardware returns something unspecified, a free
value, and the run carries the fault bit from there on (spec/93_implementation_defined.md Part 1, U5 to
U7, notes/assumptions/8.md). -/
def State.giveFound (s : State) (found : Option Reading) (unspecified : Reading) : State :=
  { s.give (found.getD unspecified) with faulted := found.isNone || s.faulted }

/-- `RD`; a result register without a value gives an unspecified number (R15, U6). -/
def hostRead (n : Nat) (s : State) : Host.Outcome State Fault Refusal :=
  match Reg.ofNumber n with
  | none => .refused .noSuchRegister
  | some r => .next (s.giveFound (s.regValue r) (.word (Config.unspecifiedWord s.returned.length)))

/-- `WS` (spec/20_memory.md R31). -/
def hostWriteSrc (a : Nat) (v : Byte) (s : State) : Host.Outcome State Fault Refusal :=
  if a < Config.maxPix then .next { s with src := s.src.write a v } else .refused .noSuchIndex

/-- `RS`. A byte not written since reset reads as its free value (notes/assumptions/1.md). -/
def hostReadSrc (a : Nat) (s : State) : Host.Outcome State Fault Refusal :=
  if a < Config.maxPix then .next (s.give (.byte (s.sample a))) else .refused .noSuchIndex

/-- The byte that a host read of a plane returns: an unspecified one where it holds no value (R19, U5, U7). -/
def State.planeByte (s : State) (p : Plane) (a : Nat) : Byte :=
  (s.planeValue p a).getD (Config.unspecifiedByte s.returned.length)

/-- `RP0`, `RP1`. -/
def hostReadPlane (p : Plane) (a : Nat) (s : State) : Host.Outcome State Fault Refusal :=
  if a < Config.maxPlane then
    .next (s.giveFound ((s.planeValue p a).map .byte) (.byte (s.planeByte p a)))
  else .refused .noSuchIndex

/-- A host write to a plane: "ignored, no state change, no error" (U21). -/
def hostWritePlane (a : Nat) (s : State) : Host.Outcome State Fault Refusal :=
  if a < Config.maxPlane then .next s else .refused .noSuchIndex

/-- The platform's reset (spec/70_reset_and_hazards.md R160). It puts every element of the block into
its reset value; what the host still has to do and has read is the host's, the fault bit of the run is
never cleared, and the count of resets moves on, so that unwritten `SRC` bytes may hold something else
than before. -/
def platformReset (s : State) : State :=
  { State.reset with
    resets := s.resets + 1, faulted := s.faulted, script := s.script, returned := s.returned }

/-- One transaction, to completion (spec/20_memory.md R40). -/
def transact (t : Transaction) (s : State) : Host.Outcome State Fault Refusal :=
  match t with
  | .wr n v => hostWrite n v s
  | .rd n => hostRead n s
  | .ws a v => hostWriteSrc a v s
  | .rs a => hostReadSrc a s
  | .rp p a => hostReadPlane p a s
  | .wp _ a _ => hostWritePlane a s
  | .cmd c => command c s
  | .reset => .next (platformReset s)

/-- The next transaction of the host's total sequence (spec/20_memory.md R41); with none left the FBP
is idle. -/
def nextTransaction (s : State) : Host.Outcome State Fault Refusal :=
  match s.script with
  | [] => .next s
  | t :: rest => transact t { s with script := rest }

/-- `s` with the byte `c` as the host's very next command. -/
def State.withCommand (s : State) (c : Byte) : State := { s with script := .cmd c :: s.script }

/-! ### Pseudo-instructions (R59) -/

/-- `ENC #<k>`. -/
def encScript (k : BitVec 4) : List Transaction := [.cmd (commandOf 1#4 k)]

/-- The `WS` lines of `RASTER`, from index `a` on. -/
def samplesScript : (a : Nat) → List Byte → List Transaction
  | _, [] => []
  | a, b :: bs => .ws a b :: samplesScript (a + 1) bs

/-- `RASTER <w>, <h>, <b0> <b1> ...`. -/
def rasterScript (w h : Word) (bs : List Byte) : List Transaction :=
  .wr 2 w :: .wr 3 h :: samplesScript 0 bs

/-- `TARGET <w>, <h>`. -/
def targetScript (w h : Word) : List Transaction := [.wr 4 w, .wr 5 h]

/-- `PASTE <x>, <y>, <w>, <h>`. -/
def pasteScript (x y w h : Word) : List Transaction := [.wr 6 x, .wr 7 y, .wr 8 w, .wr 9 h]

/-- `FRAME <w>, <h>`. -/
def frameScript (w h : Word) : List Transaction := [.wr 10 w, .wr 11 h]

/-- A host's transactions one after another, stopping at the first that does not answer a state. -/
def runAll : List Transaction → State → Host.Outcome State Fault Refusal
  | [], s => .next s
  | t :: ts, s =>
    match transact t s with
    | .next s' => runAll ts s'
    | .fault f => .fault f
    | .refused r => .refused r

end Sys2Proof.Machine
end

