-- ==== Sys2Proof/Machine/Step.lean ====
section
/-! DEFINITION. One step: the host's next transaction. The FBP has no program counter and fetches
nothing (spec/10_state.md R17); "The sequence of commands is the sequence of host writes to `CMD`". -/

namespace Sys2Proof.Machine

/-- One step of the machine. -/
def step (s : State) : Host.Outcome State Fault Refusal := nextTransaction s

/-- `s` with the instruction of the first `nbits` bits of `w` as the host's very next command. -/
def State.withFetchWord (s : State) (nbits w : Nat) : State := s.withCommand (commandByte nbits w)

end Sys2Proof.Machine
end

