-- ==== Sys2Proof/Machine/Controller.lean ====
section
/-! DEFINITION. The environment of the block (spec/45_host_controller.md): the Display Controller with its
Retained Frame, its lifecycle and its Transport calls, driving the block by transactions. It is NOT part
of the machine behind core (spec/10_state.md R20): it stands above `transact`, and no file below it reads
anything of it. -/

namespace Sys2Proof.Machine

/-! ### Rasters -/

/-- A raster, row-major (spec/20_memory.md R32). -/
structure Raster where
  width : Nat
  height : Nat
  samples : List Byte
deriving DecidableEq, Repr

/-- As many samples as the size says. -/
abbrev Raster.wf (r : Raster) : Prop := r.samples.length = r.width * r.height

/-- The raster of a size whose pixel `(x, y)` is `f x y`. -/
def Raster.tabulate (w h : Nat) (f : Nat → Nat → Byte) : Raster where
  width := w
  height := h
  samples := (List.range (w * h)).map fun i => f (i % w) (i / w)

/-- All samples `v`. -/
def Raster.uniform (w h : Nat) (v : Byte) : Raster := ⟨w, h, List.replicate (w * h) v⟩

/-- Sample `(x, y)`; only used inside the raster. -/
def Raster.sampleAt (r : Raster) (x y : Nat) : Byte := r.samples.getD (x + y * r.width) 0#8

/-- `r` with `pic` pasted at `(x0, y0)`; what of `pic` lies outside `r` is dropped
(notes/assumptions/10.md). -/
def Raster.paste (r pic : Raster) (x0 y0 : Nat) : Raster :=
  Raster.tabulate r.width r.height fun x y =>
    if x0 ≤ x ∧ x < x0 + pic.width ∧ y0 ≤ y ∧ y < y0 + pic.height then
      pic.sampleAt (x - x0) (y - y0)
    else r.sampleAt x y

/-- The sub-rectangle of `r`. -/
def Raster.crop (r : Raster) (left top w h : Nat) : Raster :=
  Raster.tabulate w h fun x y => r.sampleAt (left + x) (top + y)

/-! ### The panel's command codes (R124) -/

/-- The panel's registers, by the names of R124. -/
inductive PanelCommand where
  | panelSetting
  | powerSetting
  | powerOff
  | powerOn
  | boosterSoftStart
  | deepSleep
  | dataTransmission1
  | displayRefresh
  | dataTransmission2
  | lutVcom
  | lutWw
  | lutBw
  | lutWb
  | lutBb
  | pllControl
  | vcomDataInterval
  | resolutionSetting
  | vcmDcSetting
  | partialWindow
  | enterPartialMode
  | exitPartialMode
deriving DecidableEq, Repr

/-- The panel register map (R124). -/
def PanelCommand.code : PanelCommand → Byte
  | .panelSetting => 0x00
  | .powerSetting => 0x01
  | .powerOff => 0x02
  | .powerOn => 0x04
  | .boosterSoftStart => 0x06
  | .deepSleep => 0x07
  | .dataTransmission1 => 0x10
  | .displayRefresh => 0x12
  | .dataTransmission2 => 0x13
  | .lutVcom => 0x20
  | .lutWw => 0x21
  | .lutBw => 0x22
  | .lutWb => 0x23
  | .lutBb => 0x24
  | .pllControl => 0x30
  | .vcomDataInterval => 0x50
  | .resolutionSetting => 0x61
  | .vcmDcSetting => 0x82
  | .partialWindow => 0x90
  | .enterPartialMode => 0x91
  | .exitPartialMode => 0x92

/-- `sendCommand` of a panel command. -/
def send (p : PanelCommand) : TransportCall := .sendCommand p.code

/-- One `sendData` for each byte, in ascending index (R123, D29). -/
def sendAll (bs : List Byte) : List TransportCall := bs.map .sendData

/-- One byte sequence of a table, after its register-select command (R121). -/
def lutPart (mode : Mode) (p : PanelCommand) (f : LutFunction) : List TransportCall :=
  send p :: sendAll (Config.lutBytes mode f)

/-- The five byte sequences of a mode's table, each after its register-select command (R121). -/
def lutCalls (mode : Mode) : List TransportCall :=
  lutPart mode .lutVcom .vcom ++ lutPart mode .lutWw .ww ++ lutPart mode .lutBw .bw
    ++ lutPart mode .lutWb .wb ++ lutPart mode .lutBb .bb

/-- The code of a mode (spec/30_encoding.md R52). The mode a caller passes is such a 4-bit code; 4 to 15
are unrecognised (notes/assumptions/10.md). -/
def modeCode : Mode → BitVec 4
  | .monochrome => 0#4
  | .fourGray => 1#4
  | .partialRefresh => 2#4
  | .fast => 3#4

/-- LUT loading by mode; it "fails with an invalid-mode error for any other value", shown as `none`
(R121, spec/60_exceptions.md R141). -/
def setLut (mode : BitVec 4) : Option (List TransportCall) := (modeOf mode).map lutCalls

/-- Plane 0 after command 0x10, plane 1 after command 0x13, in every mode (R123). -/
def streamPlanes (plane0 plane1 : List Byte) : List TransportCall :=
  send .dataTransmission1 :: sendAll plane0 ++ send .dataTransmission2 :: sendAll plane1

/-- "triggers refresh; blocks until idle" (R115), as it stands among the calls once the wait is begun. -/
def refresh : List TransportCall := [send .displayRefresh, .waitIdle]

/-! ### The controller -/

/-- The panel's lifecycle (R111). -/
inductive Lifecycle where
  | uninitialized
  | active
  | sleeping
deriving DecidableEq, Repr

/-- The Display Controller: its lifecycle, the Retained Frame (R112), the block it drives, and the
Transport calls made so far, oldest first. -/
structure Controller where
  lifecycle : Lifecycle
  retained : Raster
  block : State
  calls : List TransportCall
  /-- The panel's side of `waitIdle` (R120): how many more waits end before one that never does, `none`
  when every wait ends (spec/93_implementation_defined.md U15). -/
  waitsLeft : Option Nat
deriving DecidableEq, Repr

/-- What a call gave its caller (R110, R126). -/
inductive CallResult where
  | returned
  /-- `init` returned 0. -/
  | initOk
  /-- `init` returned a negative status: ModuleInitFailure. -/
  | initFailed
  /-- An error of the block propagated to the caller. -/
  | raised (e : ErrorKind)
deriving DecidableEq, Repr

/-- Why a call of the controller has no meaning; all are safe. -/
inductive ControllerRefusal where
  /-- The call is not valid in this lifecycle state (R111, U13). -/
  | notValidNow
  /-- `partialDisplayFrame` in Monochrome or FourGray (R117, U14). -/
  | modeNotMeaningful
  /-- A size or coordinate that no 16-bit register holds (D3). -/
  | notRepresentable
  /-- The samples are not as many as the size says: not a raster. -/
  | notARaster
  /-- The block refused a transaction. -/
  | block (r : Refusal)
deriving DecidableEq, Repr

/-- Why a call of the controller never answers. -/
inductive ControllerFault where
  /-- STUCK (U15, spec/70_reset_and_hazards.md R173): the panel never reports ready, and the busy-poll,
  which has no timeout, goes on for ever. `c` is the controller as it stands then. Raised by
  `Controller.waitIdle`; it is the spec's own outcome. -/
  | waitsForever (c : Controller)
deriving DecidableEq, Repr

/-- The outcome of the controller's procedures. -/
abbrev Call (α : Type) := Host.Outcome α ControllerFault ControllerRefusal

/-- One procedure after another. -/
def Call.andThen {α β : Type} (o : Call α) (f : α → Call β) : Call β :=
  match o with
  | .next a => f a
  | .fault x => .fault x
  | .refused x => .refused x

/-- An outcome of the block as one of the controller. -/
def onBlock {α : Type} (o : Host.Outcome α Fault Refusal) : Call α :=
  match o with
  | .next a => .next a
  | .fault x => nomatch x
  | .refused r => .refused (.block r)

/-- A number for a 16-bit register. -/
def toWord (n : Nat) : Call Word :=
  if n < 65536 then .next (BitVec.ofNat 16 n) else .refused .notRepresentable

/-- The bytes `a, a+1, …` of a plane, `n` of them, read by the host, and the block after its reads. -/
def readPlaneBytes (p : Plane) : (a n : Nat) → State → Call (List Byte × State)
  | _, 0, s => .next ([], s)
  | a, n + 1, s =>
    Call.andThen (onBlock (hostReadPlane p a s)) fun s' =>
      Call.andThen (readPlaneBytes p (a + 1) n s') fun r => .next (s.planeByte p a :: r.1, r.2)

/-- What an encoder call gave: an error, or the bytes of both planes; and the block after it. -/
inductive EncodeResult where
  | raised (e : ErrorKind) (b : State)
  | planes (plane0 plane1 : List Byte) (b : State)
deriving DecidableEq, Repr

/-- One encoder call (R115, R119 steps 5 and 6): load the raster, set the target, run the ENC command of
the mode, check `STATUS`, read both planes. The host writes as much of the raster as `SRC` holds
(notes/assumptions/10.md). -/
def encodeOnBlock (b : State) (r : Raster) (w h : Nat) (mode : BitVec 4) : Call EncodeResult :=
  if r.wf then
    Call.andThen (toWord r.width) fun rw =>
    Call.andThen (toWord r.height) fun rh =>
    Call.andThen (toWord w) fun tw =>
    Call.andThen (toWord h) fun th =>
    Call.andThen (onBlock (runAll (rasterScript rw rh (r.samples.take Config.maxPix)
      ++ targetScript tw th ++ encScript mode) b)) fun b' =>
    match b'.status.err with
    | some e => .next (.raised e b')
    | none =>
      Call.andThen (readPlaneBytes .p0 0 (planeLength w h) b') fun r0 =>
      Call.andThen (readPlaneBytes .p1 0 (planeLength w h) r0.2) fun r1 =>
      .next (.planes r0.1 r1.1 r1.2)
  else .refused .notARaster

/-- The controller at construction: Uninitialized, the Retained Frame filled white, in an orientation the
spec leaves open (R112, RF_ORIENT_INIT). None of this touches the FBP (spec/70_reset_and_hazards.md R163):
`block` is the block in whatever state it is, and `waitsLeft` whatever the panel will do. -/
def Controller.create (block : State) (waitsLeft : Option Nat) : Controller where
  lifecycle := .uninitialized
  retained :=
    if Config.rfTransposedInit then Raster.uniform Config.panelH Config.panelW 255#8
    else Raster.uniform Config.panelW Config.panelH 255#8
  block := block
  calls := []
  waitsLeft := waitsLeft

/-- The controller after Transport calls that return at once. -/
def Controller.emit (c : Controller) (calls : List TransportCall) : Controller :=
  { c with calls := c.calls ++ calls }

/-- `waitIdle()`: "blocks until the panel reports ready" (R120), which may be never (U15). -/
def Controller.waitIdle (c : Controller) : Call Controller :=
  match c.waitsLeft with
  | none => .next (c.emit [.waitIdle])
  | some 0 => .fault (.waitsForever (c.emit [.waitIdle]))
  | some (n + 1) => .next { c.emit [.waitIdle] with waitsLeft := some n }

/-- A sequence of Transport calls, in which only `waitIdle` can block. -/
def Controller.perform : List TransportCall → Controller → Call Controller
  | [], c => .next c
  | t :: ts, c =>
    if t = .waitIdle then Call.andThen c.waitIdle (Controller.perform ts)
    else Controller.perform ts (c.emit [t])

/-- `init()` (R113), given the status that `moduleInit()` answers (0 is success, R120). -/
def Controller.init (c : Controller) (moduleStatus : Int) : Call (Controller × CallResult) :=
  match c.lifecycle with
  | .active => .refused .notValidNow
  | .uninitialized | .sleeping =>
    if moduleStatus = 0 then
      Call.andThen ((c.emit [.moduleInit]).perform Config.initSequence) fun c' =>
        .next ({ c' with lifecycle := .active }, .initOk)
    else .next (c.emit [.moduleInit], .initFailed)

/-- A procedure that is "valid only in Active" (R111). -/
def Controller.whenActive (c : Controller) (body : Call (Controller × CallResult)) :
    Call (Controller × CallResult) :=
  match c.lifecycle with
  | .active => body
  | .uninitialized | .sleeping => .refused .notValidNow

/-- One update of the panel: load the mode's table, send `body`, trigger the refresh, block until idle,
then `finish`. A mode without a table is InvalidMode, and nothing is sent (R121, R126). -/
def Controller.updatePanel (c : Controller) (mode : BitVec 4) (body : List TransportCall)
    (finish : Controller → Controller) : Call (Controller × CallResult) :=
  match setLut mode with
  | none => .next (c, .raised .invalidMode)
  | some lut =>
    Call.andThen (c.emit (lut ++ body ++ [send .displayRefresh])).waitIdle fun c' =>
      .next (finish c', .returned)

/-- `clear(fillByte=0xFF)` (R110, R114). -/
def Controller.clear (c : Controller) (fill : Byte := 0xFF#8) : Call (Controller × CallResult) :=
  c.whenActive
    (let plane := List.replicate (planeLength Config.panelW Config.panelH) fill
     c.updatePanel (modeCode .monochrome) (streamPlanes plane plane) fun c' =>
       { c' with retained := Raster.uniform Config.panelW Config.panelH fill })

/-- The last steps of `displayFrame`: send both planes, then the new raster is the Retained Frame. -/
def Controller.showFrame (c : Controller) (b : State) (mode : BitVec 4) (raster : Raster)
    (plane0 plane1 : List Byte) : Call (Controller × CallResult) :=
  { c with block := b }.updatePanel mode (streamPlanes plane0 plane1) fun c' =>
    { c' with retained := raster }

/-- `displayFrame(raster, mode=Monochrome)` (R110, R115); in Partial mode plane 0 is the Retained Frame's
(R116). An error aborts before anything is sent (R126). -/
def Controller.displayFrame (c : Controller) (raster : Raster)
    (mode : BitVec 4 := modeCode .monochrome) : Call (Controller × CallResult) :=
  c.whenActive
    (Call.andThen (encodeOnBlock c.block raster Config.panelW Config.panelH mode) fun new =>
      match new with
      | .raised e b => .next ({ c with block := b }, .raised e)
      | .planes new0 new1 b =>
        if mode = modeCode .partialRefresh then
          Call.andThen (encodeOnBlock b c.retained Config.panelW Config.panelH mode) fun old =>
            match old with
            | .raised e b' => .next ({ c with block := b' }, .raised e)
            | .planes old0 _ b' => c.showFrame b' mode raster old0 new1
        else c.showFrame b mode raster new0 new1)

/-- The window as `RES` left it in the block's result registers, and the crop rectangle it stands for in
the frame (R119 step 3): left, top, width, height. -/
def cropRect (transposed : Bool) (w : WinRegs) : Nat × Nat × Nat × Nat :=
  if transposed then (w.winY.toNat, w.winX.toNat, w.picHAl.toNat, w.picWAl.toNat)
  else (w.winX.toNat, w.winY.toNat, w.picWAl.toNat, w.picHAl.toNat)

/-- `RES` run by the host for a pasted image (R119 step 2). -/
def resolveOnBlock (b : State) (frame pic : Raster) (x y : Nat) : Call State :=
  Call.andThen (toWord x) fun xw =>
  Call.andThen (toWord y) fun yw =>
  Call.andThen (toWord pic.width) fun pw =>
  Call.andThen (toWord pic.height) fun ph =>
  Call.andThen (toWord frame.width) fun fw =>
  Call.andThen (toWord frame.height) fun fh =>
  onBlock (runAll (pasteScript xw yw pw ph ++ frameScript fw fh ++ [.cmd (commandOf 2#4 0#4)]) b)

/-- What R119 step 7 sends between the table and the refresh, for the window of `RES`. -/
def partialBody (w : WinRegs) (plane0 plane1 : List Byte) : List TransportCall :=
  send .enterPartialMode :: send .partialWindow
    :: sendAll (Config.windowBytes w.winX w.winY w.winXEnd w.winYEnd)
    ++ streamPlanes plane0 plane1

/-- R119 steps 7 and 8: send both planes for the window, then the composite is the Retained Frame and the
panel goes back to normal mode. -/
def Controller.showWindow (c : Controller) (b : State) (mode : BitVec 4) (composite : Raster)
    (w : WinRegs) (plane0 plane1 : List Byte) : Call (Controller × CallResult) :=
  { c with block := b }.updatePanel mode (partialBody w plane0 plane1) fun c' =>
    { c'.emit [send .exitPartialMode] with retained := composite }

/-- `partialDisplayFrame(raster, x_start, y_start, mode=Partial)` (R110, R117, R119). Monochrome and
FourGray are refused (U14); an unrecognised mode reaches the encoder, which raises InvalidMode. -/
def Controller.partialDisplayFrame (c : Controller) (raster : Raster) (x y : Nat)
    (mode : BitVec 4 := modeCode .partialRefresh) : Call (Controller × CallResult) :=
  c.whenActive
    (if mode = modeCode .monochrome ∨ mode = modeCode .fourGray then .refused .modeNotMeaningful
    else if raster.wf then
      Call.andThen (resolveOnBlock c.block c.retained raster x y) fun b =>
        match b.status.err with
        | some e => .next ({ c with block := b }, .raised e)
        | none =>
          let composite := c.retained.paste raster x y
          let rect := cropRect (frameTransposed b.res) b.win
          let oldCrop := c.retained.crop rect.1 rect.2.1 rect.2.2.1 rect.2.2.2
          let newCrop := composite.crop rect.1 rect.2.1 rect.2.2.1 rect.2.2.2
          let tw := b.win.picWAl.toNat
          let th := b.win.picHAl.toNat
          Call.andThen (encodeOnBlock b oldCrop tw th mode) fun old =>
            match old with
            | .raised e b' => .next ({ c with block := b' }, .raised e)
            | .planes old0 _ b' =>
              Call.andThen (encodeOnBlock b' newCrop tw th mode) fun new =>
                match new with
                | .raised e b'' => .next ({ c with block := b'' }, .raised e)
                | .planes _ new1 b'' => c.showWindow b'' mode composite b.win old0 new1
    else .refused .notARaster)

/-- `sleep()` (R118). -/
def Controller.sleep (c : Controller) : Call (Controller × CallResult) :=
  c.whenActive
    (Call.andThen (c.perform Config.sleepSequence) fun c' =>
      Call.andThen c'.waitIdle fun c'' =>
        .next ({ c''.emit [.moduleExit] with lifecycle := .sleeping }, .returned))

end Sys2Proof.Machine
end

