-- ==== Sys2Proof/Safety.lean ====
section
/-! DEFINITION. What claims about the machine use: the invariant of every state a run can reach, and the
host's duties (spec/45_host_controller.md R128), under which a step goes on and the run stays without a
fault. -/

namespace Sys2Proof.Machine

/-- What a successful `RES` guarantees of the result registers (spec/42_resolve.md R99). -/
abbrev WinRegs.guaranteed (w : WinRegs) : Prop :=
  w.winX.toNat % 8 = 0 ∧ w.picWAl.toNat % 8 = 0 ∧ 8 ≤ w.picWAl.toNat ∧ w.picWAl.toNat ≤ 400 ∧
  w.winX.toNat ≤ w.winXEnd.toNat ∧ w.winXEnd.toNat ≤ 399 ∧
  w.winXEnd.toNat + 1 = w.winX.toNat + w.picWAl.toNat ∧
  w.winY.toNat ≤ w.winYEnd.toNat ∧ w.winYEnd.toNat ≤ 299 ∧
  w.winYEnd.toNat + 1 = w.winY.toNat + w.picHAl.toNat ∧
  1 ≤ w.picHAl.toNat ∧ w.picHAl.toNat ≤ 300 ∧
  w.picWAl.toNat * w.picHAl.toNat ≤ Config.maxPix

/-- The memory lists the indices below `n` and no other. -/
abbrev Memory.lists (m : Memory) (n : Nat) : Prop := m.map Prod.fst = List.range n

/-- The invariant: `SRC` is canonical and within its space (R18, R30); the planes list the same first
bytes, within theirs (R19); an error code stands only beside a set latch (R12); and valid result
registers keep R99. -/
abbrev State.Inv (s : State) : Prop :=
  (s.src.wf ∧ s.src.below Config.maxPix) ∧
  (s.p0.lists s.p0.length ∧ s.p1.lists s.p0.length ∧ s.p0.length ≤ Config.maxPlane) ∧
  (s.status.err ≠ none → s.status.errLatch = true) ∧
  (s.status.resValid = true → s.win.guaranteed)

/-- The mode of each ENC command of the four. -/
def encModeOf : Instr → Option Mode
  | .encMono => some .monochrome
  | .encGray4 => some .fourGray
  | .encPart => some .partialRefresh
  | .encFast => some .fast
  | .encRsvd4 _ => none
  | .encRsvd8 _ => none
  | .res => none

/-- The sizes match the target in the direct or in the rotated sense (spec/41_encode.md R68). -/
abbrev State.sizesMatch (s : State) : Prop :=
  (s.enc.srcW = s.enc.tgtW ∧ s.enc.srcH = s.enc.tgtH) ∨
    (s.enc.srcW = s.enc.tgtH ∧ s.enc.srcH = s.enc.tgtW)

/-- The geometry is admitted (R69). -/
abbrev State.geometryAdmitted (s : State) : Prop :=
  s.enc.tgtW.toNat % 8 = 0 ∧ s.enc.tgtW.toNat * s.enc.tgtH.toNat ≤ Config.maxPix

/-- The pasted image is not empty (spec/42_resolve.md R98). -/
abbrev State.imageNotEmpty (s : State) : Prop := 1 ≤ s.res.picW.toNat ∧ 1 ≤ s.res.picH.toNat

/-- The bytes of each plane that an ENC command with these operands produces (spec/20_memory.md R34). -/
def State.planeBytes (s : State) : Nat := s.enc.tgtW.toNat * s.enc.tgtH.toNat / 8

/-- The orientation an ENC command finds (spec/41_encode.md R68). -/
def State.orient (s : State) : Option Orient :=
  orientation s.enc.srcW.toNat s.enc.srcH.toNat s.enc.tgtW.toNat s.enc.tgtH.toNat

/-- The geometry an ENC command works with in an orientation. -/
def State.geometry (s : State) (o : Orient) : Geometry :=
  ⟨s.enc.srcW.toNat, s.enc.srcH.toNat, s.enc.tgtW.toNat, s.enc.tgtH.toNat, o⟩

/-- The sizes of a geometry agree with its orientation (R68). -/
abbrev Geometry.matched (g : Geometry) : Prop :=
  match g.orient with
  | .direct => g.sw = g.w ∧ g.sh = g.h
  | .rotated => g.sw = g.h ∧ g.sh = g.w

/-- The retained frame is stored transposed, 300 x 400 (spec/42_resolve.md R92). -/
abbrev State.frameIsTransposed (s : State) : Prop := s.res.rfW.toNat = 300 ∧ s.res.rfH.toNat = 400

/-- A number rounded down to a multiple of 8, by division. -/
def roundDown8 (v : Nat) : Nat := 8 * (v / 8)

/-- A number rounded up to a multiple of 8, by division. -/
def roundUp8 (v : Nat) : Nat := 8 * ((v + 7) / 8)

/-- The last column of the window that `RES` computes, before the bounds check (R93, R94, R95). -/
def State.windowXEnd (s : State) : Nat :=
  if s.frameIsTransposed then roundDown8 s.res.yStart.toNat + roundUp8 s.res.picH.toNat - 1
  else roundDown8 s.res.xStart.toNat + roundUp8 s.res.picW.toNat - 1

/-- The last row of the window that `RES` computes, before the bounds check. -/
def State.windowYEnd (s : State) : Nat :=
  if s.frameIsTransposed then s.res.xStart.toNat + s.res.picW.toNat - 1
  else s.res.yStart.toNat + s.res.picH.toNat - 1

/-- The duty that comes with a command (R128): R69 where the sizes match, R98 for `RES`. -/
abbrev commandDuty (i : Instr) (s : State) : Prop :=
  match i with
  | .encMono => s.sizesMatch → s.geometryAdmitted
  | .encGray4 => s.sizesMatch → s.geometryAdmitted
  | .encPart => s.sizesMatch → s.geometryAdmitted
  | .encFast => s.sizesMatch → s.geometryAdmitted
  | .encRsvd4 mode => mode.toNat ≤ 3 → s.sizesMatch → s.geometryAdmitted
  | .encRsvd8 mode => mode.toNat ≤ 3 → s.sizesMatch → s.geometryAdmitted
  | .res => s.imageNotEmpty

/-- The duty that comes with a command byte; an illegal one asks nothing. -/
abbrev byteDuty (c : Byte) (s : State) : Prop :=
  match decode c with
  | .instr i => commandDuty i s
  | .rejected _ => True

/-- A transaction that has a meaning: it accesses only what exists (U8), a write to `CMD` is a byte, and a
command's duty is kept. -/
abbrev transactionAdmitted (t : Transaction) (s : State) : Prop :=
  match t with
  | .wr n v => n ≤ 17 ∧ (n = 0 → v.toNat < 256 ∧ byteDuty (v.setWidth 8) s)
  | .rd n => n ≤ 17
  | .ws a _ => a < Config.maxPix
  | .rs a => a < Config.maxPix
  | .rp _ a => a < Config.maxPlane
  | .wp _ a _ => a < Config.maxPlane
  | .cmd c => byteDuty c s
  | .reset => True

/-- A transaction that does not read a result register or a plane byte without a value (U5 to U7). -/
abbrev readsValue (t : Transaction) (s : State) : Prop :=
  match t with
  | .rd n => 12 ≤ n → s.status.resValid = true
  | .rp p a => s.status.pValid = true ∧ (s.plane p).read a ≠ none
  | .wr _ _ => True
  | .ws _ _ => True
  | .rs _ => True
  | .wp _ _ _ => True
  | .cmd _ => True
  | .reset => True

/-- The duty that comes with a transaction (R128). -/
abbrev transactionDuty (t : Transaction) (s : State) : Prop :=
  transactionAdmitted t s ∧ readsValue t s

/-- The Retained Frame is a raster of the panel's size or of its transpose (R112). -/
abbrev Controller.frameOk (c : Controller) : Prop :=
  c.retained.wf ∧
    (c.retained.width = 400 ∧ c.retained.height = 300 ∨
      c.retained.width = 300 ∧ c.retained.height = 400)

end Sys2Proof.Machine
end

