-- ==== Sys2Proof/Certificates/Slice0/Obligations.lean ====
section
/-! DEFINITION. What is claimed of the machine, one proposition for each entry of OBLIGATIONS.json. They
speak of `step`, `exec` and `transact`, and of bytes, bits and registers; where the spec gives a formula,
the statement writes it out in plain arithmetic and does not call the model's function for it. -/

open Sys2Proof Sys2Proof.Machine

/-! ### Reset -/

/-- 10_state.md R21: what reset leaves. "No value" is shown by what a read does: the run carries the fault
bit (U5, U6; as a bit of the state: notes/assumptions/8.md); and for `SRC` by no byte being listed. -/
def Obligations.ResetLeavesZeroOperandsAndNoResult : Prop :=
  State.reset.status.byte = 0x00#8 ∧
  transact (.rd 0) State.reset = .next (State.reset.give (.byte 0#8)) ∧
  State.reset.enc = ⟨0, 0, 0, 0⟩ ∧ State.reset.res = ⟨0, 0, 0, 0, 0, 0⟩ ∧
  (∀ n, 12 ≤ n → n ≤ 17 → ∃ t, transact (.rd n) State.reset = .next t ∧ t.faulted = true) ∧
  (∀ a, State.reset.src.read a = none) ∧
  (∀ p a, a < 15000 → ∃ t, transact (.rp p a) State.reset = .next t ∧ t.faulted = true)

/-- R160 and notes/assumptions/4.md: the platform's reset, from every state, puts the block into its
reset state; the host's script, what it has read and the run's fault bit are the host's. (What stands in
the result registers then, which no read shows, is notes/assumptions/2.md.) -/
def Obligations.PlatformResetRestoresTheBlock : Prop :=
  ∀ (s : State) (rest : List Transaction), s.script = .reset :: rest →
    ∃ t, step s = .next t ∧ t.enc = State.reset.enc ∧ t.res = State.reset.res ∧
      t.win = State.reset.win ∧ t.status = State.reset.status ∧ t.src = [] ∧ t.p0 = [] ∧ t.p1 = [] ∧
      t.script = rest ∧ t.returned = s.returned ∧ t.faulted = s.faulted

/-! ### The command byte -/

/-- R56, a few bytes written out. -/
def Obligations.SampleBytesDecode : Prop :=
  decode 0x10 = .instr .encMono ∧ decode 0x11 = .instr .encGray4 ∧ decode 0x12 = .instr .encPart ∧
  decode 0x13 = .instr .encFast ∧ decode 0x17 = .instr (.encRsvd4 7#4) ∧
  decode 0x18 = .instr (.encRsvd8 8#4) ∧ decode 0x20 = .instr .res ∧
  decode 0x21 = .rejected .illegalCommand

/-- R56: a byte decodes to the command of the named row it selects, at most one row is selected, and
the bytes of the default row are 0x00 to 0x0F and 0x21 to 0xFF. -/
def Obligations.DecoderFollowsTheOpcodeMap : Prop :=
  ∀ c : Byte,
    (∀ i, decode c = .instr i →
      ∃ r ∈ opcodeMap, r.selects c = true ∧ r.mnemonic = mnemonicOf i) ∧
    (opcodeMap.filter fun r => r.selects c).length ≤ 1 ∧
    (decode c = .rejected .illegalCommand ↔ ∀ r ∈ opcodeMap, r.selects c = false) ∧
    (decode c = .rejected .illegalCommand ↔ c.toNat ≤ 0x0F ∨ 0x21 ≤ c.toNat)

/-- Decoding what the encoder writes gives the command back. -/
def Obligations.DecodeOfEncodeIsTheCommand : Prop :=
  ∀ i : Instr, i.wellFormed = true → decode (encode i) = .instr i

/-- What the decoder reads is well formed, and the encoder writes the byte back. -/
def Obligations.EncodeOfDecodeIsTheByte : Prop :=
  ∀ (c : Byte) (i : Instr), decode c = .instr i → i.wellFormed = true ∧ encode i = c

/-- R11: the step of a command byte, written as `CMD` or to register 0, is the command it encodes. -/
def Obligations.StepRunsTheDecodedCommand : Prop :=
  ∀ (s : State) (c : Byte) (i : Instr) (rest : List Transaction), decode c = .instr i →
    (s.script = .cmd c :: rest ∨ s.script = .wr 0 (c.setWidth 16) :: rest) →
    step s = exec i { s with script := rest }

/-- R146: every byte that is not 0x10 to 0x1F or 0x20, written as `CMD` or to register 0, sets `ERR = 4`
and the latch, clears neither valid bit, and changes nothing else. -/
def Obligations.IllegalByteRaisesIllegalCommand : Prop :=
  ∀ (s : State) (c : Byte) (rest : List Transaction),
    (s.script = .cmd c :: rest ∨ s.script = .wr 0 (c.setWidth 16) :: rest) →
    (c.toNat < 0x10 ∨ 0x20 < c.toNat) →
    step s = .next { s with
      script := rest
      status := { s.status with err := some .illegalCommand, errLatch := true } }

/-! ### Errors -/

/-- R143: what raising an error writes, for each kind, with its code. -/
def Obligations.RaisingWritesErrLatchAndValidBit : Prop :=
  ∀ s : State,
    (s.raise .invalidMode = { s with status := ⟨some .invalidMode, true, false, s.status.resValid⟩ } ∧
      errField (some .invalidMode) = 1#3) ∧
    (s.raise .sizeMismatch = { s with status := ⟨some .sizeMismatch, true, false, s.status.resValid⟩ } ∧
      errField (some .sizeMismatch) = 2#3) ∧
    (s.raise .regionOutOfBounds =
        { s with status := ⟨some .regionOutOfBounds, true, s.status.pValid, false⟩ } ∧
      errField (some .regionOutOfBounds) = 3#3) ∧
    (s.raise .illegalCommand =
        { s with status := ⟨some .illegalCommand, true, s.status.pValid, s.status.resValid⟩ } ∧
      errField (some .illegalCommand) = 4#3)

/-- R76: a reserved mode code raises InvalidMode, whatever the operands hold. -/
def Obligations.ReservedModesRaiseInvalidMode : Prop :=
  ∀ (s : State) (m : BitVec 4),
    ((Instr.encRsvd4 m).wellFormed = true →
      exec (.encRsvd4 m) s
        = .next { s with status := ⟨some .invalidMode, true, false, s.status.resValid⟩ }) ∧
    ((Instr.encRsvd8 m).wellFormed = true →
      exec (.encRsvd8 m) s
        = .next { s with status := ⟨some .invalidMode, true, false, s.status.resValid⟩ })

/-- R142: sizes that match in neither sense raise SizeMismatch, whatever else the operands are. -/
def Obligations.MismatchedSizesRaiseSizeMismatch : Prop :=
  ∀ (i : Instr) (mode : Mode) (s : State), encModeOf i = some mode → ¬ s.sizesMatch →
    exec i s = .next { s with status := ⟨some .sizeMismatch, true, false, s.status.resValid⟩ }

/-- R145: a command either ends without error or changes only `STATUS`. -/
def Obligations.ErrorsChangeOnlyStatus : Prop :=
  ∀ (i : Instr) (s t : State), exec i s = .next t → t.status.err ≠ none →
    t = { s with status := t.status }

/-- R149: `ERR_LATCH` stays 1 until reset. -/
def Obligations.LatchStaysUntilReset : Prop :=
  ∀ (s t : State), step s = .next t → (∀ rest, s.script ≠ .reset :: rest) →
    s.status.errLatch = true → t.status.errLatch = true

/-! ### ENC -/

/-- R66: the quantiser, at the named threshold `THRESH`, which is 80 on this hardware. -/
def Obligations.QuantiserThresholdsAtEighty : Prop :=
  Config.thresh = 80 ∧
  ∀ v : Byte,
    (Config.thresh ≤ v.toNat → quantise .monochrome v = 255#8 ∧ quantise .partialRefresh v = 255#8 ∧
      quantise .fast v = 255#8) ∧
    (v.toNat < Config.thresh → quantise .monochrome v = 0#8 ∧ quantise .partialRefresh v = 0#8 ∧
      quantise .fast v = 0#8) ∧
    quantise .fourGray v = v

/-- R68: the orientation test, Direct first. -/
def Obligations.OrientationIsDirectFirst : Prop :=
  ∀ sw sh w h : Nat,
    (sw = w ∧ sh = h → orientation sw sh w h = some .direct) ∧
    (¬(sw = w ∧ sh = h) → sw = h ∧ sh = w → orientation sw sh w h = some .rotated) ∧
    (¬(sw = w ∧ sh = h) → ¬(sw = h ∧ sh = w) → orientation sw sh w h = none)

/-- 41_encode.md R70 with R67 and R71: with matching sizes and an admitted geometry the command completes, and the
quantised sample of every source pixel `(x, y)` has its bits 7 and 6 in `P0` and `P1`. Direct: column `x`
of row `y`. Rotated: column `y` of row `H - x - 1`. Column `c` of row `r` is byte `(c + r*W) div 8`, bit
`7 - (c mod 8)`. That the command completes also where raster bytes were never written is the model's
choice (notes/assumptions/1.md; U4 allows the drawn value). -/
def Obligations.EveryPixelGoesToItsPlace : Prop :=
  ∀ (i : Instr) (mode : Mode) (s : State), encModeOf i = some mode → s.geometryAdmitted →
    (s.enc.srcW = s.enc.tgtW ∧ s.enc.srcH = s.enc.tgtH →
      ∃ t, exec i s = .next t ∧ t.status = ⟨none, s.status.errLatch, true, s.status.resValid⟩ ∧
        ∀ x y, x < s.enc.srcW.toNat → y < s.enc.srcH.toNat →
          ∃ b0 b1, t.p0.read ((x + y * s.enc.tgtW.toNat) / 8) = some b0 ∧
            t.p1.read ((x + y * s.enc.tgtW.toNat) / 8) = some b1 ∧
            b0.getLsbD (7 - x % 8) = (quantise mode (s.sample (x + y * s.enc.srcW.toNat))).getLsbD 7 ∧
            b1.getLsbD (7 - x % 8)
              = (quantise mode (s.sample (x + y * s.enc.srcW.toNat))).getLsbD 6) ∧
    (¬(s.enc.srcW = s.enc.tgtW ∧ s.enc.srcH = s.enc.tgtH) →
      s.enc.srcW = s.enc.tgtH ∧ s.enc.srcH = s.enc.tgtW →
      ∃ t, exec i s = .next t ∧ t.status = ⟨none, s.status.errLatch, true, s.status.resValid⟩ ∧
        ∀ x y, x < s.enc.srcW.toNat → y < s.enc.srcH.toNat →
          ∃ b0 b1,
            t.p0.read ((y + (s.enc.tgtH.toNat - x - 1) * s.enc.tgtW.toNat) / 8) = some b0 ∧
            t.p1.read ((y + (s.enc.tgtH.toNat - x - 1) * s.enc.tgtW.toNat) / 8) = some b1 ∧
            b0.getLsbD (7 - y % 8) = (quantise mode (s.sample (x + y * s.enc.srcW.toNat))).getLsbD 7 ∧
            b1.getLsbD (7 - y % 8)
              = (quantise mode (s.sample (x + y * s.enc.srcW.toNat))).getLsbD 6)

/-- R66 and R67 seen from the samples: in the thresholded modes each plane bit of a Direct raster is 1
exactly when the sample is at or above `THRESH`; in FourGray mode the bits are those of the sample. That
the command completes also over bytes never written is the model's choice (notes/assumptions/1.md). -/
def Obligations.DirectPlaneBitsFollowTheSample : Prop :=
  ∀ (i : Instr) (s : State), s.geometryAdmitted → s.enc.srcW = s.enc.tgtW → s.enc.srcH = s.enc.tgtH →
    (i = .encMono ∨ i = .encPart ∨ i = .encFast ∨ i = .encGray4) →
    ∃ t, exec i s = .next t ∧
      ∀ x y p, x < s.enc.srcW.toNat → y < s.enc.srcH.toNat →
        ∃ b, (t.plane p).read ((x + y * s.enc.srcW.toNat) / 8) = some b ∧
          (i ≠ .encGray4 → (b.getLsbD (7 - x % 8) = true ↔
            Config.thresh ≤ (s.sample (x + y * s.enc.srcW.toNat)).toNat)) ∧
          (i = .encGray4 → b.getLsbD (7 - x % 8)
            = (s.sample (x + y * s.enc.srcW.toNat)).getLsbD (match p with | .p0 => 7 | .p1 => 6))

/-- 20_memory.md R34, 41_encode.md R71 and D24: after a success each plane holds bytes 0 to `N - 1` and no
other. That the command completes also over raster bytes never written is the model's choice
(notes/assumptions/1.md). -/
def Obligations.PlanesHoldExactlyTheirBytes : Prop :=
  ∀ (i : Instr) (mode : Mode) (s : State), encModeOf i = some mode → s.sizesMatch →
    s.geometryAdmitted →
    ∃ t, exec i s = .next t ∧
      ∀ p k, ((t.plane p).read k).isSome = true ↔ k < s.enc.tgtW.toNat * s.enc.tgtH.toNat / 8

/-- The closed form of 41_encode.md R78 (which the spec derives): the loop and the gather form give the
same planes, bit by bit. That the command completes also over raster bytes never written is the model's
choice (notes/assumptions/1.md). -/
def Obligations.EncodeEqualsTheClosedForm : Prop :=
  ∀ (i : Instr) (mode : Mode) (s : State) (o : Orient), encModeOf i = some mode →
    s.geometryAdmitted → s.orient = some o →
    ∃ t, exec i s = .next t ∧
      ∀ p k j, k < s.planeBytes → j < 8 →
        ∃ b, (t.plane p).read k = some b ∧
          b.getLsbD j = gatherBit (s.geometry o) mode s.sample p k j

/-- 41_encode.md R77 (which the spec derives; notes/assumptions/3.md rests on it): for a matched geometry
with `W mod 8 = 0`, bytes 0 to `N - 1` come out the same whatever the plane held and in whatever order
the pixels are visited. -/
def Obligations.PackingIgnoresOldContentsAndOrder : Prop :=
  ∀ (g : Geometry) (mode : Mode) (sample : Nat → Byte) (p : Plane) (m : Memory)
    (px : List (Nat × Nat)), g.matched → g.w % 8 = 0 → px.Perm (pixels g.sw g.sh) →
    ∀ k, k < g.w * g.h / 8 →
      (packOver g mode sample p m px).read k = (packPlane g mode sample p).read k

/-- 41_encode.md R79 (which the spec derives): in the three thresholded modes `P1` equals `P0`. That the
command completes also over raster bytes never written is the model's choice (notes/assumptions/1.md). -/
def Obligations.ThresholdedPlanesAreEqual : Prop :=
  ∀ (i : Instr) (s : State), i = .encMono ∨ i = .encPart ∨ i = .encFast → s.sizesMatch →
    s.geometryAdmitted → ∃ t, exec i s = .next t ∧ t.status.pValid = true ∧ t.p1 = t.p0

/-- 41_encode.md R82 (which the spec derives): the three thresholded commands are the same function. -/
def Obligations.MonoPartFastAreOneFunction : Prop :=
  ∀ s : State, exec .encPart s = exec .encMono s ∧ exec .encFast s = exec .encMono s

/-- 41_encode.md R81 (which the spec derives): an empty target succeeds with empty planes. -/
def Obligations.EmptyTargetSucceedsWithEmptyPlanes : Prop :=
  ∀ (i : Instr) (mode : Mode) (s : State), encModeOf i = some mode → s.sizesMatch →
    s.enc.tgtW.toNat % 8 = 0 → s.enc.tgtW.toNat = 0 ∨ s.enc.tgtH.toNat = 0 →
    ∃ t, exec i s = .next t ∧ t.status = ⟨none, s.status.errLatch, true, s.status.resValid⟩ ∧
      t.p0 = [] ∧ t.p1 = []

/-- 41_encode.md R69 and R71: once the sizes match, a command has a result only if the geometry is admitted,
and is refused otherwise; with a size mismatch or a reserved mode the geometry is not looked at. That an
admitted geometry is enough for a result, raster bytes never written included, is R71's body together with
the model's choice (notes/assumptions/1.md). -/
def Obligations.AdmissionFollowsTheGeometry : Prop :=
  ∀ (i : Instr) (mode : Mode) (s : State), encModeOf i = some mode →
    (s.sizesMatch → s.enc.tgtW.toNat % 8 = 0 → s.enc.tgtW.toNat * s.enc.tgtH.toNat ≤ 120000 →
      ∃ t, exec i s = .next t ∧ t.status.err = none) ∧
    (s.sizesMatch → s.enc.tgtW.toNat % 8 ≠ 0 → exec i s = .refused .targetWidthUnaligned) ∧
    (s.sizesMatch → s.enc.tgtW.toNat % 8 = 0 → 120000 < s.enc.tgtW.toNat * s.enc.tgtH.toNat →
      exec i s = .refused .targetTooLarge) ∧
    (¬ s.sizesMatch → ∃ t, exec i s = .next t ∧ t.status.err = some .sizeMismatch) ∧
    (∀ m : BitVec 4, 4 ≤ m.toNat → m.toNat ≤ 7 →
      ∃ t, exec (.encRsvd4 m) s = .next t ∧ t.status.err = some .invalidMode) ∧
    (∀ m : BitVec 4, 8 ≤ m.toNat →
      ∃ t, exec (.encRsvd8 m) s = .next t ∧ t.status.err = some .invalidMode)

/-- R65 and R23, the frame of the six ENCODE commands: no byte of `SRC`, no operand or result register,
not `RES_VALID`; the latch only on an error; and on an error no byte of a plane. -/
def Obligations.EncodeFrame : Prop :=
  ∀ (i : Instr) (s t : State), i ≠ .res → exec i s = .next t →
    t.enc = s.enc ∧ t.res = s.res ∧ t.win = s.win ∧ t.src = s.src ∧
    (∀ a, t.sample a = s.sample a) ∧ t.status.resValid = s.status.resValid ∧
    t.resets = s.resets ∧ t.script = s.script ∧ t.returned = s.returned ∧ t.faulted = s.faulted ∧
    (t.status.err = none → t.status.errLatch = s.status.errLatch) ∧
    (t.status.err ≠ none → ∀ p a, (t.plane p).read a = (s.plane p).read a)

/-- R80 and R16: a command of the four reads the size registers and the raster and nothing else: on two
states that agree on those, it ends the same way with the same planes. -/
def Obligations.EncodeReadsOnlySizesAndRaster : Prop :=
  ∀ (i : Instr) (mode : Mode) (s s' : State), encModeOf i = some mode → s.enc = s'.enc →
    (∀ a, a < s.enc.srcW.toNat * s.enc.srcH.toNat → s.sample a = s'.sample a) →
    (∀ t, exec i s = .next t → ∃ t', exec i s' = .next t' ∧ t'.status.err = t.status.err ∧
      t'.status.pValid = t.status.pValid ∧
      (t.status.pValid = true → t'.p0 = t.p0 ∧ t'.p1 = t.p1)) ∧
    (∀ r, exec i s = .refused r → exec i s' = .refused r)

/-! ### RES -/

/-- R93 and R95: the window of a frame not stored transposed. -/
def Obligations.ResolveNormalFrame : Prop :=
  ∀ s : State, ¬ s.frameIsTransposed → s.imageNotEmpty →
    8 * (s.res.xStart.toNat / 8) + 8 * ((s.res.picW.toNat + 7) / 8) - 1 ≤ 399 →
    s.res.yStart.toNat + s.res.picH.toNat - 1 ≤ 299 →
    ∃ t, exec .res s = .next t ∧ t.status = ⟨none, s.status.errLatch, s.status.pValid, true⟩ ∧
      t.win.winX.toNat = 8 * (s.res.xStart.toNat / 8) ∧
      t.win.picWAl.toNat = 8 * ((s.res.picW.toNat + 7) / 8) ∧
      t.win.winXEnd.toNat = 8 * (s.res.xStart.toNat / 8) + 8 * ((s.res.picW.toNat + 7) / 8) - 1 ∧
      t.win.winY.toNat = s.res.yStart.toNat ∧ t.win.picHAl.toNat = s.res.picH.toNat ∧
      t.win.winYEnd.toNat = s.res.yStart.toNat + s.res.picH.toNat - 1

/-- 42_resolve.md R94 ("This spec reads 'swap roles' as a plain exchange", D16; notes/assumptions/5.md):
the window of a transposed frame. -/
def Obligations.ResolveTransposedFrame : Prop :=
  ∀ s : State, s.frameIsTransposed → s.imageNotEmpty →
    8 * (s.res.yStart.toNat / 8) + 8 * ((s.res.picH.toNat + 7) / 8) - 1 ≤ 399 →
    s.res.xStart.toNat + s.res.picW.toNat - 1 ≤ 299 →
    ∃ t, exec .res s = .next t ∧ t.status = ⟨none, s.status.errLatch, s.status.pValid, true⟩ ∧
      t.win.winX.toNat = 8 * (s.res.yStart.toNat / 8) ∧
      t.win.picWAl.toNat = 8 * ((s.res.picH.toNat + 7) / 8) ∧
      t.win.winXEnd.toNat = 8 * (s.res.yStart.toNat / 8) + 8 * ((s.res.picH.toNat + 7) / 8) - 1 ∧
      t.win.winY.toNat = s.res.xStart.toNat ∧ t.win.picHAl.toNat = s.res.picW.toNat ∧
      t.win.winYEnd.toNat = s.res.xStart.toNat + s.res.picW.toNat - 1

/-- R96: RegionOutOfBounds is raised when an end passes the panel's edge, "and only then". -/
def Obligations.ResolveRejectsExactlyPastTheEdge : Prop :=
  ∀ s : State, s.imageNotEmpty →
    ((399 < s.windowXEnd ∨ 299 < s.windowYEnd) ↔
      exec .res s
        = .next { s with status := ⟨some .regionOutOfBounds, true, s.status.pValid, false⟩ })

/-- 42_resolve.md R99 (which the spec derives): what a successful `RES` guarantees. -/
def Obligations.ResolvedWindowIsInsideAndAligned : Prop :=
  ∀ s t : State, exec .res s = .next t → t.status.err = none → t.win.guaranteed

/-- The end of 42_resolve.md R99 (which the spec derives): after a successful `RES`, an ENC command whose
target is `PIC_W_AL` by `PIC_H_AL` and whose raster has that size in either sense succeeds. R99 says that
the target meets R69; that the command then succeeds also over raster bytes never written is the model's
choice (notes/assumptions/1.md). -/
def Obligations.ResolvedWindowIsEncodable : Prop :=
  ∀ (s t u : State) (i : Instr) (mode : Mode), exec .res s = .next t → t.status.err = none →
    encModeOf i = some mode → u.enc.tgtW = t.win.picWAl → u.enc.tgtH = t.win.picHAl →
    u.sizesMatch → ∃ v, exec i u = .next v ∧ v.status.err = none ∧ v.status.pValid = true

/-- R98: an empty pasted image is refused. -/
def Obligations.EmptyPastedImageIsRefused : Prop :=
  ∀ s : State, s.res.picW.toNat = 0 ∨ s.res.picH.toNat = 0 →
    exec .res s = .refused .emptyPastedImage

/-- R90 and R23, the frame of `RES`: no ENC register, no operand, no byte of a memory, not `P_VALID`;
the result registers only on success. -/
def Obligations.ResolveFrame : Prop :=
  ∀ s t : State, exec .res s = .next t →
    t.enc = s.enc ∧ t.res = s.res ∧ t.src = s.src ∧ t.p0 = s.p0 ∧ t.p1 = s.p1 ∧
    (∀ a, t.sample a = s.sample a) ∧ t.status.pValid = s.status.pValid ∧ t.resets = s.resets ∧
    t.script = s.script ∧ t.returned = s.returned ∧ t.faulted = s.faulted ∧
    (t.status.err = none → t.status.errLatch = s.status.errLatch) ∧
    (t.status.err ≠ none → t.win = s.win)

/-- 42_resolve.md R100 (which the spec derives) and R16: `RES` reads its six operands and nothing else. -/
def Obligations.ResolveReadsOnlyItsOperands : Prop :=
  ∀ s s' : State, s.res = s'.res →
    (∀ t, exec .res s = .next t → ∃ t', exec .res s' = .next t' ∧ t'.status.err = t.status.err ∧
      t'.status.resValid = t.status.resValid ∧ (t.status.resValid = true → t'.win = t.win)) ∧
    (∀ r, exec .res s = .refused r → exec .res s' = .refused r)

/-- D16 and C11: under `swap_flip` the same inputs are rejected, with the same error, and the same are
refused; a success, under either value, is one under the other, and differs in the rows alone, which stay
in the panel with the same height. -/
def Obligations.SwapFlipChangesTheRowsAlone : Prop :=
  ∀ s : State,
    (resolveUnder .swap s = .next (s.raise .regionOutOfBounds) ↔
      resolveUnder .swapFlip s = .next (s.raise .regionOutOfBounds)) ∧
    (∀ r, resolveUnder .swap s = .refused r ↔ resolveUnder .swapFlip s = .refused r) ∧
    ((∃ t, resolveUnder .swap s = .next t ∧ t.status.err = none) ↔
      ∃ t, resolveUnder .swapFlip s = .next t ∧ t.status.err = none) ∧
    ∀ t, resolveUnder .swap s = .next t → t.status.err = none →
      ∃ t', resolveUnder .swapFlip s = .next t' ∧
        t' = { t with win := { t.win with winY := t'.win.winY, winYEnd := t'.win.winYEnd } } ∧
        t'.win.winYEnd.toNat ≤ 299 ∧
        t'.win.winYEnd.toNat + 1 = t'.win.winY.toNat + t'.win.picHAl.toNat ∧
        (s.frameIsTransposed →
          t'.win.winY.toNat + s.res.xStart.toNat + s.res.picW.toNat = 300) ∧
        (¬ s.frameIsTransposed → t' = t)

/-! ### Commands in general -/

/-- 41_encode.md R80 and 42_resolve.md R100: a command issued again leaves the state of the first time. -/
def Obligations.RepeatingACommandChangesNothing : Prop :=
  ∀ (i : Instr) (s t : State), exec i s = .next t → exec i t = .next t

/-! ### The host's transactions -/

/-- R13, R14 and R22: an operand register takes what is written, reads it back, and nothing else in the
machine changes. -/
def Obligations.OperandWriteReadsBack : Prop :=
  ∀ (s : State) (n : Nat) (v : Word), 2 ≤ n → n ≤ 11 →
    ∃ t, transact (.wr n v) s = .next t ∧ transact (.rd n) t = .next (t.give (.word v)) ∧
      (∀ r : Reg, r.number ≠ n → t.readReg r = s.readReg r) ∧
      t = { s with enc := t.enc, res := t.res }

/-- R12, R15, R19 and R22: a write to a read-only register or to a plane is ignored. -/
def Obligations.ReadOnlyWritesAreIgnored : Prop :=
  ∀ s : State,
    (∀ (n : Nat) (v : Word), n = 1 ∨ (12 ≤ n ∧ n ≤ 17) → transact (.wr n v) s = .next s) ∧
    (∀ (p : Plane) (a : Nat) (v : Byte), a < 15000 → transact (.wp p a v) s = .next s)

/-- R11, R12, R15 and R19: what a read of `CMD`, of `STATUS`, of a valid result register and of a plane
byte returns. -/
def Obligations.ReadsReturnWhatStands : Prop :=
  ∀ s : State,
    transact (.rd 0) s = .next (s.give (.byte 0#8)) ∧
    (∃ b : Byte, transact (.rd 1) s = .next (s.give (.byte b)) ∧
      b.extractLsb' 0 3 = errField s.status.err ∧ b.getLsbD 3 = s.status.errLatch ∧
      b.getLsbD 4 = s.status.pValid ∧ b.getLsbD 5 = s.status.resValid ∧
      b.getLsbD 6 = false ∧ b.getLsbD 7 = false) ∧
    (s.status.resValid = true →
      transact (.rd 12) s = .next (s.give (.word s.win.winX)) ∧
      transact (.rd 13) s = .next (s.give (.word s.win.winY)) ∧
      transact (.rd 14) s = .next (s.give (.word s.win.winXEnd)) ∧
      transact (.rd 15) s = .next (s.give (.word s.win.winYEnd)) ∧
      transact (.rd 16) s = .next (s.give (.word s.win.picWAl)) ∧
      transact (.rd 17) s = .next (s.give (.word s.win.picHAl))) ∧
    (s.status.pValid = true → ∀ (p : Plane) (a : Nat) (b : Byte), a < 15000 →
      (s.plane p).read a = some b → transact (.rp p a) s = .next (s.give (.byte b)))

/-- 10_state.md R15 and R19: a read of what holds no value returns something unspecified, a free value, and
is a fault of the run: it carries the fault bit (93_implementation_defined.md Part 1, U5 to U7;
notes/assumptions/8.md). Nothing else changes. -/
def Obligations.ReadingNoValueFaults : Prop :=
  ∀ s : State,
    (s.status.resValid = false → ∀ n, 12 ≤ n → n ≤ 17 →
      transact (.rd n) s = .next
        { s.give (.word (Config.unspecifiedWord s.returned.length)) with faulted := true }) ∧
    (∀ (p : Plane) (a : Nat), a < 15000 → s.status.pValid = false ∨ (s.plane p).read a = none →
      transact (.rp p a) s = .next
        { s.give (.byte (Config.unspecifiedByte s.returned.length)) with faulted := true })

/-- 93_implementation_defined.md Part 1: the fault bit of a run "is never cleared"; and it is set by a read
of what holds no value (U5 to U7) and by nothing else. That the platform's reset keeps it too is the
model's choice (notes/assumptions/8.md). -/
def Obligations.FaultBitRecordsReadsOfNoValue : Prop :=
  ∀ s t : State, step s = .next t →
    (s.script = [] → t.faulted = s.faulted) ∧
    (∀ (a : Transaction) (rest : List Transaction), s.script = a :: rest →
      (t.faulted = true ↔ s.faulted = true ∨
        (∃ n, a = .rd n ∧ 12 ≤ n ∧ s.status.resValid = false) ∨
        (∃ p k, a = .rp p k ∧ (s.status.pValid = false ∨ (s.plane p).read k = none))))

/-- R31: a byte written to `SRC` is the one the next command and the next read find; every other byte and
everything else stay. -/
def Obligations.SrcWriteReadsBack : Prop :=
  ∀ (s : State) (a : Nat) (v : Byte), a < 120000 →
    ∃ t, transact (.ws a v) s = .next t ∧ t.sample a = v ∧
      transact (.rs a) t = .next (t.give (.byte v)) ∧
      (∀ b, b ≠ a → t.src.read b = s.src.read b ∧ t.sample b = s.sample b) ∧
      t = { s with src := t.src }

/-- R22, R31 and U8: an access to what does not exist is refused. -/
def Obligations.NonexistentAccessIsRefused : Prop :=
  ∀ s : State,
    (∀ n, 18 ≤ n → transact (.rd n) s = .refused .noSuchRegister ∧
      ∀ v, transact (.wr n v) s = .refused .noSuchRegister) ∧
    (∀ a, 120000 ≤ a → transact (.rs a) s = .refused .noSuchIndex ∧
      ∀ v, transact (.ws a v) s = .refused .noSuchIndex) ∧
    (∀ p a, 15000 ≤ a → transact (.rp p a) s = .refused .noSuchIndex ∧
      ∀ v, transact (.wp p a v) s = .refused .noSuchIndex)

/-- R40 and R41: a step is exactly the host's next transaction, which leaves the rest of the sequence as
it was; with none left the block is idle. The sequence as a field of the state is the model's choice
(notes/assumptions/7.md). -/
def Obligations.StepsFollowTheHostsSequence : Prop :=
  (∀ s : State, s.script = [] → step s = .next s) ∧
  (∀ (s : State) (t : Transaction) (rest : List Transaction), s.script = t :: rest →
    step s = transact t { s with script := rest } ∧
    ∀ s', step s = .next s' → s'.script = rest)

/-! ### The whole machine -/

/-- The invariant holds after reset. -/
def Obligations.ResetKeepsTheRules : Prop := State.reset.Inv

/-- Every step keeps the invariant: `SRC` canonical and within its space, the planes a list of their
first bytes, an error code only beside the latch, and valid result registers within the panel. -/
def Obligations.EveryStepKeepsTheRules : Prop :=
  ∀ s t : State, s.Inv → step s = .next t → t.Inv

/-- 45_host_controller.md R128 (which the spec derives): a step answers a next state exactly when its
transaction has a meaning, and a run without a fault stays without one exactly when the host keeps the
whole duty. That unwritten raster bytes ask nothing, and that a write to `CMD` must be a byte, are the
model's choices (notes/assumptions/1.md, 6.md), and the fault bit is notes/assumptions/8.md. -/
def Obligations.StepsGoOnExactlyUnderTheHostsDuty : Prop :=
  ∀ (s : State) (t : Transaction) (rest : List Transaction), s.script = t :: rest →
    ((∃ s', step s = .next s') ↔ transactionAdmitted t { s with script := rest }) ∧
    (s.faulted = false →
      ((∃ s', step s = .next s' ∧ s'.faulted = false) ↔ transactionDuty t { s with script := rest }))

/-! ### The environment (Machine/Controller.lean) -/

/-- R124: the panel register map. -/
def Obligations.PanelCodesAreTheMap : Prop :=
  [PanelCommand.panelSetting, .powerSetting, .powerOff, .powerOn, .boosterSoftStart, .deepSleep,
    .dataTransmission1, .displayRefresh, .dataTransmission2, .lutVcom, .lutWw, .lutBw, .lutWb, .lutBb,
    .pllControl, .vcomDataInterval, .resolutionSetting, .vcmDcSetting, .partialWindow,
    .enterPartialMode, .exitPartialMode].map PanelCommand.code
  = [0x00, 0x01, 0x02, 0x04, 0x06, 0x07, 0x10, 0x12, 0x13, 0x20, 0x21, 0x22, 0x23, 0x24, 0x30, 0x50,
    0x61, 0x82, 0x90, 0x91, 0x92]

/-- 45_host_controller.md R113: a failed power-up makes `init` return failure with no register write. That
every status but 0 is a failure is the model's choice (notes/assumptions/10.md). -/
def Obligations.FailedInitWritesNoRegister : Prop :=
  ∀ (c : Controller) (status : Int), c.lifecycle ≠ .active → status ≠ 0 →
    c.init status = .next ({ c with calls := c.calls ++ [.moduleInit] }, .initFailed)

/-- 45_host_controller.md R121: LUT loading selects the mode's table and sends its five sequences, each
after its register-select command; any other value of the mode is an invalid-mode error. That a caller's
mode is a 4-bit code of 30_encoding.md R52, the four modes being 0 to 3 and the other values 4 to 15, is
the model's choice (notes/assumptions/10.md MODE). -/
def Obligations.LutLoadingFollowsTheMode : Prop :=
  ∀ m : BitVec 4,
    (∀ mode : Mode, m = modeCode mode →
      setLut m = some
        (.sendCommand 0x20 :: (Config.lutBytes mode .vcom).map .sendData
          ++ .sendCommand 0x21 :: (Config.lutBytes mode .ww).map .sendData
          ++ .sendCommand 0x22 :: (Config.lutBytes mode .bw).map .sendData
          ++ .sendCommand 0x23 :: (Config.lutBytes mode .wb).map .sendData
          ++ .sendCommand 0x24 :: (Config.lutBytes mode .bb).map .sendData)) ∧
    (4 ≤ m.toNat → setLut m = none) ∧
    (modeCode .monochrome = 0#4 ∧ modeCode .fourGray = 1#4 ∧ modeCode .partialRefresh = 2#4 ∧
      modeCode .fast = 3#4)

/-- 45_host_controller.md R126: an error of the block aborts the call: nothing is sent, and the Retained
Frame stays. -/
def Obligations.AbortedCallSendsNothing : Prop :=
  ∀ (c c' : Controller) (raster : Raster) (x y : Nat) (m : BitVec 4) (e : ErrorKind),
    c.displayFrame raster m = .next (c', .raised e) ∨
      c.partialDisplayFrame raster x y m = .next (c', .raised e) →
    c'.calls = c.calls ∧ c'.retained = c.retained ∧ c'.lifecycle = c.lifecycle ∧
      c'.waitsLeft = c.waitsLeft

/-- 60_exceptions.md R140, R141 and 45_host_controller.md R126: in Active, a mode that is none of the four
makes both display calls end with InvalidMode (the first for every raster of representable sizes, also one
that does not match; the second once the resolver has accepted the window). That `partialDisplayFrame` does
so after the resolver is the model's choice (notes/assumptions/10.md MODE), and that it gets there with a
part of the image outside the frame rests on PASTE. -/
def Obligations.UnrecognisedModeIsInvalidMode : Prop :=
  ∀ (c : Controller) (raster : Raster) (x y : Nat) (m : BitVec 4), c.lifecycle = .active → raster.wf →
    4 ≤ m.toNat →
    (raster.width < 65536 → raster.height < 65536 →
      ∃ c', c.displayFrame raster m = .next (c', .raised .invalidMode)) ∧
    (c.frameOk → 1 ≤ raster.width → 1 ≤ raster.height →
      (c.retained.width = 400 → roundDown8 x + roundUp8 raster.width - 1 ≤ 399 ∧
        y + raster.height - 1 ≤ 299) →
      (c.retained.width = 300 → roundDown8 y + roundUp8 raster.height - 1 ≤ 399 ∧
        x + raster.width - 1 ≤ 299) →
      ∃ c', c.partialDisplayFrame raster x y m = .next (c', .raised .invalidMode))

/-- 45_host_controller.md R111: `init` leads to Active and fails without leaving its state; the four other
calls are refused outside Active (U13); `clear`, `displayFrame` and `partialDisplayFrame` stay in Active,
and `sleep` leads to Sleeping. The calls that wait for the panel answer when the wait ends (`waitsLeft`);
where one does not, EndlessWaitIsStuck speaks. That `init` is refused in Active is the model's
(notes/assumptions/10.md), and nothing is said of it here. -/
def Obligations.CallsFollowTheLifecycle : Prop :=
  ∀ (c : Controller) (raster : Raster) (x y : Nat) (m : BitVec 4) (fill : Byte),
    (c.lifecycle ≠ .active →
      (c.waitsLeft = none → ∃ c', c.init 0 = .next (c', .initOk) ∧ c'.lifecycle = .active) ∧
      c.clear fill = .refused .notValidNow ∧ c.displayFrame raster m = .refused .notValidNow ∧
      c.partialDisplayFrame raster x y m = .refused .notValidNow ∧
      c.sleep = .refused .notValidNow) ∧
    (c.lifecycle = .active →
      (c.waitsLeft ≠ some 0 →
        ∃ c', c.clear fill = .next (c', .returned) ∧ c'.lifecycle = .active) ∧
      (c.waitsLeft = none →
        ∃ c', c.sleep = .next (c', .returned) ∧ c'.lifecycle = .sleeping)) ∧
    (∀ r, c.displayFrame raster m = .next r ∨ c.partialDisplayFrame raster x y m = .next r →
      r.1.lifecycle = .active)

/-- 70_reset_and_hazards.md R173 and U15: a wait that the panel never ends is a hang of the host. `clear`
and `sleep` in Active then never answer; and whichever call hangs, it has just begun to wait, the Retained
Frame has not been replaced and the lifecycle has not moved: the wait stands before both in the step orders
of 45_host_controller.md section 2 (R113, R114, R115, R117, R118, R119). What `waitsForever` keeps of the
controller is the model's choice (notes/assumptions/10.md WAITS). -/
def Obligations.EndlessWaitIsStuck : Prop :=
  ∀ (c : Controller) (raster : Raster) (x y : Nat) (m : BitVec 4) (fill : Byte) (status : Int),
    (c.lifecycle = .active → c.waitsLeft = some 0 →
      (∃ c', c.clear fill = .fault (.waitsForever c')) ∧ ∃ c', c.sleep = .fault (.waitsForever c')) ∧
    ∀ c', (c.init status = .fault (.waitsForever c') ∨ c.clear fill = .fault (.waitsForever c') ∨
        c.displayFrame raster m = .fault (.waitsForever c') ∨
        c.partialDisplayFrame raster x y m = .fault (.waitsForever c') ∨
        c.sleep = .fault (.waitsForever c')) →
      c'.retained = c.retained ∧ c'.lifecycle = c.lifecycle ∧
        ∃ sent, c'.calls = c.calls ++ sent ++ [.waitIdle]

/-- 45_host_controller.md R112: the Retained Frame is a raster of one of the two sizes at construction, and
every call that answers leaves it one. -/
def Obligations.RetainedFrameKeepsOneOfTwoSizes : Prop :=
  (∀ (block : State) (waitsLeft : Option Nat), (Controller.create block waitsLeft).frameOk) ∧
  ∀ (c : Controller) (r : Controller × CallResult) (raster : Raster) (x y : Nat) (m : BitVec 4)
    (fill : Byte) (status : Int), c.frameOk →
    (c.init status = .next r ∨ c.clear fill = .next r ∨ c.displayFrame raster m = .next r ∨
      c.partialDisplayFrame raster x y m = .next r ∨ c.sleep = .next r) →
    r.1.frameOk

/-- 45_host_controller.md R115: in Active, a raster of one of the two sizes is displayed, in each of the
four modes and whatever the block held, when the panel ends the wait, and the host reads nothing that holds
no value; and the call hangs when the wait never ends (U15). -/
def Obligations.DisplayFrameCompletes : Prop :=
  ∀ (c : Controller) (raster : Raster) (m : BitVec 4), c.lifecycle = .active → c.frameOk → raster.wf →
    (raster.width = 400 ∧ raster.height = 300 ∨ raster.width = 300 ∧ raster.height = 400) →
    m.toNat ≤ 3 →
    (c.waitsLeft ≠ some 0 → ∃ c', c.displayFrame raster m = .next (c', .returned) ∧
      c'.block.faulted = c.block.faulted) ∧
    (c.waitsLeft = some 0 → ∃ c', c.displayFrame raster m = .fault (.waitsForever c'))

/-- 45_host_controller.md R117 and R119: in Active, in Partial or Fast mode, an image whose aligned window
lies in the panel is displayed, when the panel ends the wait: the resolver's window, the crops in the
frame's own coordinates and both encoder calls fit together, for a frame stored in either orientation and
whatever the block held, and the host reads nothing that holds no value. When the panel never ends the wait
the call hangs (U15). That an image which
sticks out of the frame inside its last window is pasted without its outside part is the model's choice
(notes/assumptions/10.md PASTE). -/
def Obligations.PartialDisplayCompletes : Prop :=
  ∀ (c : Controller) (raster : Raster) (x y : Nat) (m : BitVec 4), c.lifecycle = .active → c.frameOk →
    raster.wf → 1 ≤ raster.width → 1 ≤ raster.height →
    (m = modeCode .partialRefresh ∨ m = modeCode .fast) →
    (c.retained.width = 400 → roundDown8 x + roundUp8 raster.width - 1 ≤ 399 ∧
      y + raster.height - 1 ≤ 299) →
    (c.retained.width = 300 → roundDown8 y + roundUp8 raster.height - 1 ≤ 399 ∧
      x + raster.width - 1 ≤ 299) →
    (c.waitsLeft ≠ some 0 → ∃ c', c.partialDisplayFrame raster x y m = .next (c', .returned) ∧
      c'.block.faulted = c.block.faulted) ∧
    (c.waitsLeft = some 0 → ∃ c', c.partialDisplayFrame raster x y m = .fault (.waitsForever c'))

/-- 45_host_controller.md R127: after a successful call the Retained Frame is the target or composited
raster. Three points are the model's choices (notes/assumptions/10.md): that after `displayFrame` it is the
raster as supplied, also one of 300 x 400 (RETAINED FRAME); that `paste` drops what lies outside the frame
(PASTE); and that `clear` makes a raster of its fill byte (CLEAR). -/
def Obligations.RetainedFrameFollowsTheCall : Prop :=
  ∀ (c c' : Controller) (raster : Raster) (x y : Nat) (m : BitVec 4) (fill : Byte),
    (c.displayFrame raster m = .next (c', .returned) → c'.retained = raster) ∧
    (c.partialDisplayFrame raster x y m = .next (c', .returned) →
      c'.retained = c.retained.paste raster x y) ∧
    (c.clear fill = .next (c', .returned) → c'.retained = Raster.uniform 400 300 fill)

/-- R116: in Partial mode `displayFrame` streams plane 0 of the Retained Frame and plane 1 of the new
raster. -/
def Obligations.PartialDisplayStreamsOldAndNew : Prop :=
  ∀ (c c' : Controller) (raster : Raster),
    c.displayFrame raster (modeCode .partialRefresh) = .next (c', .returned) →
    ∃ new0 new1 old0 old1 b b',
      encodeOnBlock c.block raster 400 300 (modeCode .partialRefresh) = .next (.planes new0 new1 b) ∧
      encodeOnBlock b c.retained 400 300 (modeCode .partialRefresh) = .next (.planes old0 old1 b') ∧
      c'.calls = c.calls ++ (lutCalls .partialRefresh ++ streamPlanes old0 new1 ++ refresh)

/-- 45_host_controller.md R119 steps 2 to 8: `partialDisplayFrame` streams plane 0 of the old crop and
plane 1 of the new one, for the crop rectangle of the resolved window, and programs that window. -/
def Obligations.PartialUpdateStreamsOldAndNewCrops : Prop :=
  ∀ (c c' : Controller) (raster : Raster) (x y : Nat) (m : BitVec 4),
    c.partialDisplayFrame raster x y m = .next (c', .returned) →
    ∃ b left top w h old0 old1 new0 new1 b' b'' lut,
      resolveOnBlock c.block c.retained raster x y = .next b ∧ b.status.err = none ∧
      (b.frameIsTransposed → left = b.win.winY.toNat ∧ top = b.win.winX.toNat ∧
        w = b.win.picHAl.toNat ∧ h = b.win.picWAl.toNat) ∧
      (¬ b.frameIsTransposed → left = b.win.winX.toNat ∧ top = b.win.winY.toNat ∧
        w = b.win.picWAl.toNat ∧ h = b.win.picHAl.toNat) ∧
      encodeOnBlock b (c.retained.crop left top w h) b.win.picWAl.toNat b.win.picHAl.toNat m
        = .next (.planes old0 old1 b') ∧
      encodeOnBlock b' ((c.retained.paste raster x y).crop left top w h)
        b.win.picWAl.toNat b.win.picHAl.toNat m = .next (.planes new0 new1 b'') ∧
      setLut m = some lut ∧
      c'.calls = c.calls ++ lut
        ++ (.sendCommand 0x91 :: .sendCommand 0x90
          :: (Config.windowBytes b.win.winX b.win.winY b.win.winXEnd b.win.winYEnd).map .sendData)
        ++ (.sendCommand 0x10 :: old0.map .sendData ++ .sendCommand 0x13 :: new1.map .sendData)
        ++ [.sendCommand 0x12, .waitIdle, .sendCommand 0x92]
end

