-- ==== Sys2Proof/Laws/State.lean ====
section
/-! SUPPORT. What each update of the state leaves of each field, one lemma per field per update. -/

namespace Sys2Proof.Machine

/-! ### `Status` -/

@[simp] theorem Status.raise_err (e : ErrorKind) (st : Status) : (st.raise e).err = some e := by
  cases e <;> rfl
@[simp] theorem Status.raise_errLatch (e : ErrorKind) (st : Status) :
    (st.raise e).errLatch = true := by cases e <;> rfl
@[simp] theorem Status.raise_raise (e : ErrorKind) (st : Status) :
    (st.raise e).raise e = st.raise e := by cases e <;> rfl
@[simp] theorem Status.encoded_err (st : Status) : st.encoded.err = none := rfl
@[simp] theorem Status.encoded_errLatch (st : Status) : st.encoded.errLatch = st.errLatch := rfl
@[simp] theorem Status.encoded_pValid (st : Status) : st.encoded.pValid = true := rfl
@[simp] theorem Status.encoded_resValid (st : Status) : st.encoded.resValid = st.resValid := rfl
@[simp] theorem Status.resolved_err (st : Status) : st.resolved.err = none := rfl
@[simp] theorem Status.resolved_errLatch (st : Status) : st.resolved.errLatch = st.errLatch := rfl
@[simp] theorem Status.resolved_pValid (st : Status) : st.resolved.pValid = st.pValid := rfl
@[simp] theorem Status.resolved_resValid (st : Status) : st.resolved.resValid = true := rfl

/-! ### `State.raise` -/

section Raise
variable (s : State) (e : ErrorKind)
@[simp] theorem State.raise_enc : (s.raise e).enc = s.enc := rfl
@[simp] theorem State.raise_res : (s.raise e).res = s.res := rfl
@[simp] theorem State.raise_win : (s.raise e).win = s.win := rfl
@[simp] theorem State.raise_status : (s.raise e).status = s.status.raise e := rfl
@[simp] theorem State.raise_src : (s.raise e).src = s.src := rfl
@[simp] theorem State.raise_p0 : (s.raise e).p0 = s.p0 := rfl
@[simp] theorem State.raise_p1 : (s.raise e).p1 = s.p1 := rfl
@[simp] theorem State.raise_resets : (s.raise e).resets = s.resets := rfl
@[simp] theorem State.raise_faulted : (s.raise e).faulted = s.faulted := rfl
@[simp] theorem State.raise_script : (s.raise e).script = s.script := rfl
@[simp] theorem State.raise_returned : (s.raise e).returned = s.returned := rfl
@[simp] theorem State.raise_sample : (s.raise e).sample = s.sample := rfl
@[simp] theorem State.raise_plane (p : Plane) : (s.raise e).plane p = s.plane p := by
  cases p <;> rfl
end Raise

/-! ### `State.completeEncode` -/

section CompleteEncode
variable (s : State) (m0 m1 : Memory)
@[simp] theorem State.completeEncode_enc : (s.completeEncode m0 m1).enc = s.enc := rfl
@[simp] theorem State.completeEncode_res : (s.completeEncode m0 m1).res = s.res := rfl
@[simp] theorem State.completeEncode_win : (s.completeEncode m0 m1).win = s.win := rfl
@[simp] theorem State.completeEncode_status :
    (s.completeEncode m0 m1).status = s.status.encoded := rfl
@[simp] theorem State.completeEncode_src : (s.completeEncode m0 m1).src = s.src := rfl
@[simp] theorem State.completeEncode_p0 : (s.completeEncode m0 m1).p0 = m0 := rfl
@[simp] theorem State.completeEncode_p1 : (s.completeEncode m0 m1).p1 = m1 := rfl
@[simp] theorem State.completeEncode_resets : (s.completeEncode m0 m1).resets = s.resets := rfl
@[simp] theorem State.completeEncode_faulted : (s.completeEncode m0 m1).faulted = s.faulted := rfl
@[simp] theorem State.completeEncode_script : (s.completeEncode m0 m1).script = s.script := rfl
@[simp] theorem State.completeEncode_returned : (s.completeEncode m0 m1).returned = s.returned := rfl
@[simp] theorem State.completeEncode_sample : (s.completeEncode m0 m1).sample = s.sample := rfl
end CompleteEncode

/-! ### `State.completeResolve` -/

section CompleteResolve
variable (s : State) (w : WinRegs)
@[simp] theorem State.completeResolve_enc : (s.completeResolve w).enc = s.enc := rfl
@[simp] theorem State.completeResolve_res : (s.completeResolve w).res = s.res := rfl
@[simp] theorem State.completeResolve_win : (s.completeResolve w).win = w := rfl
@[simp] theorem State.completeResolve_status :
    (s.completeResolve w).status = s.status.resolved := rfl
@[simp] theorem State.completeResolve_src : (s.completeResolve w).src = s.src := rfl
@[simp] theorem State.completeResolve_p0 : (s.completeResolve w).p0 = s.p0 := rfl
@[simp] theorem State.completeResolve_p1 : (s.completeResolve w).p1 = s.p1 := rfl
@[simp] theorem State.completeResolve_resets : (s.completeResolve w).resets = s.resets := rfl
@[simp] theorem State.completeResolve_faulted : (s.completeResolve w).faulted = s.faulted := rfl
@[simp] theorem State.completeResolve_script : (s.completeResolve w).script = s.script := rfl
@[simp] theorem State.completeResolve_returned : (s.completeResolve w).returned = s.returned := rfl
@[simp] theorem State.completeResolve_sample : (s.completeResolve w).sample = s.sample := rfl
end CompleteResolve

/-! ### `State.writeReg`: only the operand registers may change -/

section WriteReg
variable (s : State) (r : Reg) (v : Word)
@[simp] theorem State.writeReg_win : (s.writeReg r v).win = s.win := by cases r <;> rfl
@[simp] theorem State.writeReg_status : (s.writeReg r v).status = s.status := by cases r <;> rfl
@[simp] theorem State.writeReg_src : (s.writeReg r v).src = s.src := by cases r <;> rfl
@[simp] theorem State.writeReg_p0 : (s.writeReg r v).p0 = s.p0 := by cases r <;> rfl
@[simp] theorem State.writeReg_p1 : (s.writeReg r v).p1 = s.p1 := by cases r <;> rfl
@[simp] theorem State.writeReg_resets : (s.writeReg r v).resets = s.resets := by cases r <;> rfl
@[simp] theorem State.writeReg_faulted : (s.writeReg r v).faulted = s.faulted := by cases r <;> rfl
@[simp] theorem State.writeReg_script : (s.writeReg r v).script = s.script := by cases r <;> rfl
@[simp] theorem State.writeReg_returned : (s.writeReg r v).returned = s.returned := by
  cases r <;> rfl
end WriteReg

/-! ### `State.give`: only what the host has read -/

section Give
variable (s : State) (v : Reading)
@[simp] theorem State.give_enc : (s.give v).enc = s.enc := rfl
@[simp] theorem State.give_res : (s.give v).res = s.res := rfl
@[simp] theorem State.give_win : (s.give v).win = s.win := rfl
@[simp] theorem State.give_status : (s.give v).status = s.status := rfl
@[simp] theorem State.give_src : (s.give v).src = s.src := rfl
@[simp] theorem State.give_p0 : (s.give v).p0 = s.p0 := rfl
@[simp] theorem State.give_p1 : (s.give v).p1 = s.p1 := rfl
@[simp] theorem State.give_resets : (s.give v).resets = s.resets := rfl
@[simp] theorem State.give_faulted : (s.give v).faulted = s.faulted := rfl
@[simp] theorem State.give_script : (s.give v).script = s.script := rfl
@[simp] theorem State.give_returned : (s.give v).returned = v :: s.returned := rfl
end Give

/-! ### `State.giveFound`: what the host has read, and the fault bit -/

section GiveFound
variable (s : State) (found : Option Reading) (u v : Reading)
@[simp] theorem State.giveFound_enc : (s.giveFound found u).enc = s.enc := rfl
@[simp] theorem State.giveFound_res : (s.giveFound found u).res = s.res := rfl
@[simp] theorem State.giveFound_win : (s.giveFound found u).win = s.win := rfl
@[simp] theorem State.giveFound_status : (s.giveFound found u).status = s.status := rfl
@[simp] theorem State.giveFound_src : (s.giveFound found u).src = s.src := rfl
@[simp] theorem State.giveFound_p0 : (s.giveFound found u).p0 = s.p0 := rfl
@[simp] theorem State.giveFound_p1 : (s.giveFound found u).p1 = s.p1 := rfl
@[simp] theorem State.giveFound_resets : (s.giveFound found u).resets = s.resets := rfl
@[simp] theorem State.giveFound_script : (s.giveFound found u).script = s.script := rfl
@[simp] theorem State.giveFound_returned :
    (s.giveFound found u).returned = found.getD u :: s.returned := rfl
@[simp] theorem State.giveFound_faulted :
    (s.giveFound found u).faulted = (found.isNone || s.faulted) := rfl
@[simp] theorem State.giveFound_plane (p : Plane) : (s.giveFound found u).plane p = s.plane p := by
  cases p <;> rfl
@[simp] theorem State.giveFound_some : s.giveFound (some v) u = s.give v := rfl
@[simp] theorem State.giveFound_none : s.giveFound none u = { s.give u with faulted := true } :=
  rfl
end GiveFound

/-! ### `platformReset` -/

section Reset
variable (s : State)
@[simp] theorem platformReset_enc : (platformReset s).enc = State.reset.enc := rfl
@[simp] theorem platformReset_res : (platformReset s).res = State.reset.res := rfl
@[simp] theorem platformReset_win : (platformReset s).win = State.reset.win := rfl
@[simp] theorem platformReset_status : (platformReset s).status = State.reset.status := rfl
@[simp] theorem platformReset_src : (platformReset s).src = State.reset.src := rfl
@[simp] theorem platformReset_p0 : (platformReset s).p0 = State.reset.p0 := rfl
@[simp] theorem platformReset_p1 : (platformReset s).p1 = State.reset.p1 := rfl
@[simp] theorem platformReset_resets : (platformReset s).resets = s.resets + 1 := rfl
@[simp] theorem platformReset_faulted : (platformReset s).faulted = s.faulted := rfl
@[simp] theorem platformReset_script : (platformReset s).script = s.script := rfl
@[simp] theorem platformReset_returned : (platformReset s).returned = s.returned := rfl
end Reset

end Sys2Proof.Machine
end

