-- ==== Sys2Proof/Laws/Exec.lean ====
section
/-! SUPPORT. What a command, a transaction and a step can answer: one inversion lemma for each. -/

namespace Sys2Proof.Machine

/-! ### The constants as numbers -/

theorem Config.maxPix_eq : Config.maxPix = 120000 := rfl
theorem Config.maxPlane_eq : Config.maxPlane = 15000 := rfl
theorem Config.gran_eq : Config.gran = 8 := rfl
theorem Config.panelW_eq : Config.panelW = 400 := rfl
theorem Config.panelH_eq : Config.panelH = 300 := rfl

theorem floor8_eq (v : Nat) : floor8 v = 8 * (v / 8) := by unfold floor8 Config.gran; omega

theorem ceil8_eq (v : Nat) : ceil8 v = 8 * ((v + 7) / 8) := by
  unfold ceil8; rw [floor8_eq]; rfl

/-! ### ENC -/

theorem orientation_none {sw sh w h : Nat} :
    orientation sw sh w h = none ↔ ¬(sw = w ∧ sh = h) ∧ ¬(sw = h ∧ sh = w) := by
  unfold orientation; split_ifs <;> simp_all

/-- An orientation is found exactly when the sizes match in one of the two senses. -/
theorem State.sizesMatch_iff (s : State) :
    s.sizesMatch ↔ orientation s.enc.srcW.toNat s.enc.srcH.toNat s.enc.tgtW.toNat s.enc.tgtH.toNat
      ≠ none := by
  rw [ne_eq, orientation_none]
  unfold State.sizesMatch
  simp only [BitVec.toNat_eq]
  tauto

/-- The state after an ENC command that succeeded in orientation `o`. -/
def State.encodedIn (s : State) (mode : Mode) (o : Orient) : State :=
  s.completeEncode (packPlane (s.geometry o) mode s.sample .p0)
    (packPlane (s.geometry o) mode s.sample .p1)

/-- All that an ENC command of one of the four modes can answer. -/
theorem encodeMode_cases (mode : Mode) (s : State) :
    (¬ s.sizesMatch ∧ encodeMode mode s = .next (s.raise .sizeMismatch)) ∨
    (s.sizesMatch ∧ s.enc.tgtW.toNat % 8 ≠ 0 ∧ encodeMode mode s = .refused .targetWidthUnaligned) ∨
    (s.sizesMatch ∧ s.enc.tgtW.toNat % 8 = 0 ∧
      Config.maxPix < s.enc.tgtW.toNat * s.enc.tgtH.toNat ∧
      encodeMode mode s = .refused .targetTooLarge) ∨
    (s.geometryAdmitted ∧ ∃ o,
      orientation s.enc.srcW.toNat s.enc.srcH.toNat s.enc.tgtW.toNat s.enc.tgtH.toNat = some o ∧
      encodeMode mode s = .next (s.encodedIn mode o)) := by
  rw [State.sizesMatch_iff]
  cases ho : orientation s.enc.srcW.toNat s.enc.srcH.toNat s.enc.tgtW.toNat s.enc.tgtH.toNat with
  | none => exact .inl ⟨by simp, by simp only [encodeMode, ho]⟩
  | some o =>
    by_cases hw : s.enc.tgtW.toNat % Config.gran = 0
    · by_cases hp : Config.maxPix < s.enc.tgtW.toNat * s.enc.tgtH.toNat
      · exact .inr (.inr (.inl ⟨by simp, hw, hp, by simp [encodeMode, ho, hw, hp]⟩))
      · refine .inr (.inr (.inr ⟨⟨hw, by omega⟩, o, rfl, ?_⟩))
        simp only [encodeMode, ho, hw, hp, if_false, ne_eq, not_true_eq_false]
        rfl
    · exact .inr (.inl ⟨by simp, hw, by simp [encodeMode, ho, hw]⟩)

/-- A reserved mode code is none of the four. -/
theorem modeOf_reserved {m : BitVec 4} (h : 4 ≤ m.toNat) : modeOf m = none := by
  unfold modeOf
  split_ifs with h0 h1 h2 h3
  · subst h0; simp at h
  · subst h1; simp at h
  · subst h2; simp at h
  · subst h3; simp at h
  · rfl

/-- The four commands are `encodeMode` of their mode. -/
theorem exec_eq_encodeMode {i : Instr} {mode : Mode} (h : encModeOf i = some mode) (s : State) :
    exec i s = encodeMode mode s := by
  cases i <;> cases h <;> rfl

/-- A matching, admitted geometry completes. -/
theorem exec_completes {i : Instr} {mode : Mode} (h : encModeOf i = some mode) {s : State}
    (ha : s.geometryAdmitted) {o : Orient} (ho : s.orient = some o) :
    exec i s = .next (s.encodedIn mode o) := by
  have hm : s.sizesMatch := (State.sizesMatch_iff s).2 (by rw [State.orient] at ho; simp [ho])
  rw [exec_eq_encodeMode h]
  rcases encodeMode_cases mode s with ⟨h1, -⟩ | ⟨-, h1, -⟩ | ⟨-, -, h1, -⟩ | ⟨-, o', ho', h1⟩
  · exact absurd hm h1
  · exact absurd ha.1 h1
  · exact absurd ha.2 (by omega)
  · rw [h1]
    rw [State.orient, ho'] at ho
    cases ho; rfl

/-- The sizes match when and only when an orientation is found. -/
theorem State.sizesMatch_orient {s : State} (h : s.sizesMatch) : ∃ o, s.orient = some o :=
  Option.ne_none_iff_exists'.1 ((State.sizesMatch_iff s).1 h)

/-! ### RES -/

/-- All that `RES` can answer. -/
theorem resolveUnder_cases (map : Config.RotMap) (s : State) :
    (¬ s.imageNotEmpty ∧ resolveUnder map s = .refused .emptyPastedImage) ∨
    (s.imageNotEmpty ∧ pastEdge (alignedWindow s.res) = true ∧
      resolveUnder map s = .next (s.raise .regionOutOfBounds)) ∨
    (s.imageNotEmpty ∧ pastEdge (alignedWindow s.res) = false ∧
      resolveUnder map s
        = .next (s.completeResolve (placeRows map s.res (alignedWindow s.res)).toRegs)) := by
  unfold resolveUnder State.imageNotEmpty
  split_ifs with h1 h2
  · exact .inl ⟨by omega, rfl⟩
  · exact .inr (.inl ⟨by omega, h2, rfl⟩)
  · exact .inr (.inr ⟨by omega, by simpa using h2, rfl⟩)

/-! ### Commands -/

/-- All the next states a command can answer. -/
theorem exec_cases {i : Instr} {s t : State} (h : exec i s = .next t) :
    (∃ e, e ≠ .illegalCommand ∧ (i = .res → e = .regionOutOfBounds) ∧
      (i ≠ .res → e ≠ .regionOutOfBounds) ∧ t = s.raise e) ∨
    (i ≠ .res ∧ s.geometryAdmitted ∧ ∃ mode o, s.orient = some o ∧ t = s.encodedIn mode o) ∨
    (i = .res ∧ s.imageNotEmpty ∧ pastEdge (alignedWindow s.res) = false ∧
      t = s.completeResolve (alignedWindow s.res).toRegs) := by
  have body : ∀ {m : BitVec 4} {j : Instr}, j ≠ .res → encodeBody m s = .next t →
      (∃ e, e ≠ .illegalCommand ∧ (j = .res → e = .regionOutOfBounds) ∧
        (j ≠ .res → e ≠ .regionOutOfBounds) ∧ t = s.raise e) ∨
      (j ≠ .res ∧ s.geometryAdmitted ∧ ∃ mode o, s.orient = some o ∧ t = s.encodedIn mode o) := by
    intro m j hj hb
    unfold encodeBody at hb
    cases hm : modeOf m with
    | none =>
      rw [hm] at hb
      cases hb
      exact .inl ⟨.invalidMode, by decide, fun h => absurd h hj, fun _ => by decide, rfl⟩
    | some mode =>
      rw [hm] at hb
      rcases encodeMode_cases mode s with ⟨-, h1⟩ | ⟨-, -, h1⟩ | ⟨-, -, -, h1⟩ | ⟨ha, o, ho, h1⟩
      · simp only [h1] at hb
        cases hb
        exact .inl ⟨.sizeMismatch, by decide, fun h => absurd h hj, fun _ => by decide, rfl⟩
      · simp [h1] at hb
      · simp [h1] at hb
      · simp only [h1] at hb
        cases hb
        exact .inr ⟨hj, ha, mode, o, ho, rfl⟩
  cases i with
  | encMono => exact (body (m := 0#4) (by decide) h).imp_right .inl
  | encGray4 => exact (body (m := 1#4) (by decide) h).imp_right .inl
  | encPart => exact (body (m := 2#4) (by decide) h).imp_right .inl
  | encFast => exact (body (m := 3#4) (by decide) h).imp_right .inl
  | encRsvd4 m => exact (body (by simp) h).imp_right .inl
  | encRsvd8 m => exact (body (by simp) h).imp_right .inl
  | res =>
    have h : resolveUnder Config.resRotMap s = .next t := h
    rcases resolveUnder_cases Config.resRotMap s with ⟨-, h1⟩ | ⟨-, -, h1⟩ | ⟨hn, hb, h1⟩
    · simp [h1] at h
    · rw [h1] at h
      cases h
      exact .inl ⟨.regionOutOfBounds, by decide, fun _ => rfl, fun h => absurd rfl h, rfl⟩
    · rw [h1] at h
      cases h
      exact .inr (.inr ⟨rfl, hn, hb, rfl⟩)

/-- A byte written to `CMD` either runs its command or raises IllegalCommand. -/
theorem command_cases (c : Byte) (s : State) :
    (∃ i, decode c = .instr i ∧ command c s = exec i s) ∨
    (decode c = .rejected .illegalCommand ∧ command c s = .next (s.raise .illegalCommand)) := by
  unfold command
  cases decode c with
  | instr i => exact .inl ⟨i, rfl, rfl⟩
  | rejected e => cases e; exact .inr ⟨rfl, rfl⟩

/-- A register holds a value unless it is a result register and `RES_VALID = 0`. -/
theorem State.regValue_ne_none {s : State} {n : Nat} {r : Reg} (h : Reg.ofNumber n = some r) :
    (12 ≤ n → s.status.resValid = true) ↔ s.regValue r ≠ none := by
  have hr : r.isResult = true ↔ 12 ≤ n := by
    have hn : n < 18 := by
      have := (List.getElem?_eq_some_iff.1 h).1; simpa [allRegs] using this
    unfold Reg.ofNumber at h
    interval_cases n <;> simp [allRegs] at h <;> subst h <;> simp [Reg.isResult]
  rw [← hr]
  unfold State.regValue
  cases r.isResult <;> cases s.status.resValid <;> simp

/-- When a byte of a plane holds a value. -/
theorem State.planeValue_ne_none (s : State) (p : Plane) (a : Nat) :
    (s.status.pValid = true ∧ (s.plane p).read a ≠ none) ↔
      (s.planeValue p a).map Reading.byte ≠ none := by
  unfold State.planeValue
  cases s.status.pValid <;> simp

/-- All the next states a host's transaction can answer. -/
theorem transact_cases {t : Transaction} {s s' : State} (h : transact t s = .next s') :
    (readsValue t s ∧ ∃ c, command c s = .next s') ∨ (readsValue t s ∧ ∃ r v, s' = s.writeReg r v) ∨
    (∃ found u, (readsValue t s ↔ found ≠ none) ∧ s' = s.giveFound found u) ∨
    (readsValue t s ∧ ∃ a v, a < Config.maxPix ∧ s' = { s with src := s.src.write a v }) ∨
    (readsValue t s ∧ s' = s) ∨ (t = .reset ∧ s' = platformReset s) := by
  cases t with
  | wr n v =>
    simp only [transact, hostWrite] at h
    split at h
    · simp at h
    · split_ifs at h with hv
      exact .inl ⟨trivial, _, h⟩
    · cases h; exact .inr (.inl ⟨trivial, _, _, rfl⟩)
  | rd n =>
    simp only [transact, hostRead] at h
    split at h
    · simp at h
    · next r hr => cases h; exact .inr (.inr (.inl ⟨_, _, State.regValue_ne_none hr, rfl⟩))
  | ws a v =>
    simp only [transact, hostWriteSrc] at h
    split_ifs at h with ha
    cases h; exact .inr (.inr (.inr (.inl ⟨trivial, a, v, ha, rfl⟩)))
  | rs a =>
    simp only [transact, hostReadSrc] at h
    split_ifs at h with ha
    cases h
    exact .inr (.inr (.inl ⟨some (.byte (s.sample a)), .byte 0#8, by simp, by simp⟩))
  | rp p a =>
    simp only [transact, hostReadPlane] at h
    split_ifs at h with ha
    cases h; exact .inr (.inr (.inl ⟨_, _, State.planeValue_ne_none s p a, rfl⟩))
  | wp p a v =>
    simp only [transact, hostWritePlane] at h
    split_ifs at h with ha
    cases h; exact .inr (.inr (.inr (.inr (.inl ⟨trivial, rfl⟩))))
  | cmd c => exact .inl ⟨trivial, c, h⟩
  | reset =>
    simp only [transact] at h
    cases h; exact .inr (.inr (.inr (.inr (.inr ⟨rfl, rfl⟩))))

/-- A step is the host's next transaction. -/
theorem step_cons {s : State} {t : Transaction} {rest : List Transaction}
    (h : s.script = t :: rest) : step s = transact t { s with script := rest } := by
  unfold step nextTransaction; rw [h]

/-- With no transaction left the block is idle. -/
theorem step_nil {s : State} (h : s.script = []) : step s = .next s := by
  unfold step nextTransaction; rw [h]

end Sys2Proof.Machine
end

