-- ==== Sys2Proof/Laws/Memory.lean ====
section
/-! SUPPORT. The laws of one byte memory: what a write reads as, and that it keeps the canonical form. -/

namespace Sys2Proof.Machine

@[simp] theorem Memory.read_nil (a : Nat) : Memory.read [] a = none := rfl

theorem Memory.read_cons (k : Nat) (v : Byte) (m : Memory) (a : Nat) :
    Memory.read ((k, v) :: m) a = if a = k then some v else m.read a := rfl

/-- A write reads back at its own index and leaves every other index alone. -/
theorem Memory.read_write (m : Memory) (a b : Nat) (v : Byte) :
    (m.write a v).read b = if b = a then some v else m.read b := by
  induction m with
  | nil => simp [Memory.write, Memory.read]
  | cons c m ih =>
    obtain ⟨k, w⟩ := c
    unfold Memory.write
    by_cases h1 : a < k
    · rw [if_pos h1, Memory.read_cons]
    · by_cases h2 : a = k
      · subst h2
        rw [if_neg h1, if_pos rfl, Memory.read_cons, Memory.read_cons]
        by_cases h : b = a <;> simp [h]
      · rw [if_neg h1, if_neg h2, Memory.read_cons, Memory.read_cons, ih]
        by_cases h : b = a
        · subst h; simp [h2]
        · simp [h]

@[simp] theorem Memory.read_write_same (m : Memory) (a : Nat) (v : Byte) :
    (m.write a v).read a = some v := by simp [Memory.read_write]

theorem Memory.read_write_other (m : Memory) {a b : Nat} (v : Byte) (h : b ≠ a) :
    (m.write a v).read b = m.read b := by simp [Memory.read_write, h]

/-- What a write lists. -/
theorem Memory.mem_write {m : Memory} {a : Nat} {v : Byte} {c : Host.Cell}
    (h : c ∈ m.write a v) : c = (a, v) ∨ c ∈ m := by
  induction m with
  | nil => simpa [Memory.write] using h
  | cons d m ih =>
    obtain ⟨k, w⟩ := d
    unfold Memory.write at h
    split_ifs at h with h1 h2
    · simpa using h
    · rcases List.mem_cons.1 h with h | h <;> simp [h]
    · rcases List.mem_cons.1 h with h | h
      · simp [h]
      · rcases ih h with h | h <;> simp [h]

/-- A write keeps the canonical form. -/
theorem Memory.write_wf {m : Memory} (hm : m.wf) (a : Nat) (v : Byte) : (m.write a v).wf := by
  induction m with
  | nil => simp [Memory.write, Memory.wf]
  | cons d m ih =>
    obtain ⟨k, w⟩ := d
    obtain ⟨hk, hm'⟩ := List.pairwise_cons.1 hm
    unfold Memory.write
    split_ifs with h1 h2
    · refine List.pairwise_cons.2 ⟨fun c hc => ?_, hm⟩
      rcases List.mem_cons.1 hc with rfl | hc
      · exact h1
      · exact h1.trans (hk c hc)
    · subst h2; exact List.pairwise_cons.2 ⟨hk, hm'⟩
    · refine List.pairwise_cons.2 ⟨fun c hc => ?_, ih hm'⟩
      rcases Memory.mem_write hc with rfl | hc
      · show k < a; omega
      · exact hk c hc

/-- A write inside a space stays inside it. -/
theorem Memory.write_below {m : Memory} {cap a : Nat} (hm : m.below cap) (ha : a < cap) (v : Byte) :
    (m.write a v).below cap := by
  intro c hc
  rcases Memory.mem_write hc with rfl | hc
  · exact ha
  · exact hm c hc

/-- Setting a bit keeps the canonical form. -/
theorem Memory.putBit_wf {m : Memory} (hm : m.wf) (a j : Nat) (b : Bool) : (m.putBit a j b).wf :=
  Memory.write_wf hm _ _

/-- An index outside the listed ones holds no value. -/
theorem Memory.read_eq_none_iff (m : Memory) (a : Nat) :
    m.read a = none ↔ a ∉ m.map Prod.fst := by
  induction m with
  | nil => simp
  | cons c m ih =>
    obtain ⟨k, v⟩ := c
    rw [Memory.read_cons]
    split_ifs with h
    · simp [h]
    · simp [ih, h]

/-- Two canonical memories that read the same are the same list. -/
theorem Memory.ext_of_wf {m n : Memory} (hm : m.wf) (hn : n.wf)
    (h : ∀ a, m.read a = n.read a) : m = n := by
  induction m generalizing n with
  | nil =>
    cases n with
    | nil => rfl
    | cons d n => have := h d.1; simp [Memory.read] at this
  | cons c m ih =>
    cases n with
    | nil => have := h c.1; simp [Memory.read] at this
    | cons d n =>
      obtain ⟨k, v⟩ := c
      obtain ⟨l, w⟩ := d
      obtain ⟨hk, hm'⟩ := List.pairwise_cons.1 hm
      obtain ⟨hl, hn'⟩ := List.pairwise_cons.1 hn
      have absent : ∀ {x : Nat} {y : Memory}, (∀ q ∈ y, x < q.1) → ∀ z, z ≤ x → y.read z = none := by
        intro x y hy z hz
        refine (Memory.read_eq_none_iff y z).2 fun hmem => ?_
        obtain ⟨q, hq, rfl⟩ := List.mem_map.1 hmem
        exact absurd (hy q hq) (by omega)
      have hkl : k = l := by
        rcases lt_trichotomy k l with hlt | heq | hgt
        · have := h k
          rw [Memory.read_cons, Memory.read_cons, if_pos rfl, if_neg (by omega),
            absent hl k (by omega)] at this
          simp at this
        · exact heq
        · have := h l
          rw [Memory.read_cons, Memory.read_cons, if_neg (by omega), if_pos rfl,
            absent hk l (by omega)] at this
          simp at this
      subst hkl
      have hvw : v = w := by simpa [Memory.read_cons] using h k
      subst hvw
      refine congrArg _ (ih hm' hn' fun a => ?_)
      by_cases ha : a = k
      · subst ha; rw [absent hk _ le_rfl, absent hl _ le_rfl]
      · have := h a
        rwa [Memory.read_cons, Memory.read_cons, if_neg ha, if_neg ha] at this

/-- A canonical memory that holds a value exactly below `n` lists exactly those indices. -/
theorem Memory.lists_of_reads {m : Memory} (hm : m.wf) {n : Nat}
    (h : ∀ k, (m.read k).isSome = true ↔ k < n) : m.lists n := by
  have hs : (m.map Prod.fst).Pairwise (· < ·) := List.pairwise_map.2 hm
  have hr : (List.range n).Pairwise (· < ·) := List.pairwise_lt_range
  refine List.Perm.eq_of_pairwise (le := (· < ·)) (fun a b _ _ h1 h2 => absurd h1 (by omega)) hs hr ?_
  refine (List.perm_ext_iff_of_nodup (hs.imp fun h => by omega) (hr.imp fun h => by omega)).2
    fun k => ?_
  rw [List.mem_range, ← h k, ← not_iff_not, ← Memory.read_eq_none_iff, Bool.not_eq_true,
    Option.isSome_eq_false_iff, Option.isNone_iff_eq_none]

theorem Memory.length_of_lists {m : Memory} {n : Nat} (h : m.lists n) : m.length = n := by
  simpa using congrArg List.length h

/-- A memory that lists the indices below `n` is canonical and inside a space of `n` bytes. -/
theorem Memory.wf_of_lists {m : Memory} {n : Nat} (h : m.lists n) : m.wf ∧ m.below n := by
  refine ⟨List.pairwise_map.1 (show (m.map Prod.fst).Pairwise (· < ·) from h ▸ List.pairwise_lt_range),
    fun p hp => ?_⟩
  exact List.mem_range.1 (h ▸ List.mem_map_of_mem hp)

end Sys2Proof.Machine
end

