-- ==== Sys2Proof/Laws/Pack.lean ====
section
/-! SUPPORT. The packing loop of spec/41_encode.md R71, as a fold: what it does to one bit, to one byte's
presence, and to the canonical form. -/

namespace Sys2Proof.Machine

/-! ### One bit of a byte -/

/-- Setting bit `j` changes bit `j` and no other. -/
theorem getLsbD_putBit (v : Byte) {i j : Nat} (b : Bool) (hi : i < 8) :
    (putBit v j b).getLsbD i = if i = j then b else v.getLsbD i := by
  have h1 : (1#8 <<< j).getLsbD i = decide (i = j) := by
    rw [BitVec.getLsbD_shiftLeft, BitVec.getLsbD_one]
    by_cases h : i = j
    · subst h; simp [hi]
    · simp only [h, decide_false]
      by_cases h' : i < j
      · simp [h']
      · simp only [hi, decide_true, h', decide_false, Bool.not_false, Bool.true_and]
        have : ¬ (i - j = 0) := by omega
        simp [this]
  unfold putBit
  cases b
  · simp only [Bool.false_eq_true, if_false, BitVec.getLsbD_and, BitVec.getLsbD_not, h1, hi,
      decide_true, Bool.true_and]
    split_ifs with h <;> simp [h]
  · simp only [if_true, BitVec.getLsbD_or, h1]
    split_ifs with h <;> simp [h]

/-- Bit `j` of the byte at `a`, a byte without a value counting as 0. -/
def Memory.bit (m : Memory) (a j : Nat) : Bool := ((m.read a).getD 0#8).getLsbD j

theorem Memory.read_putBit (m : Memory) (a j c : Nat) (b : Bool) :
    (m.putBit a j b).read c
      = if c = a then some (Machine.putBit ((m.read a).getD 0#8) j b) else m.read c :=
  Memory.read_write _ _ _ _

theorem Memory.bit_putBit (m : Memory) (a j c : Nat) {i : Nat} (b : Bool) (hi : i < 8) :
    (m.putBit a j b).bit c i = if c = a ∧ i = j then b else m.bit c i := by
  unfold Memory.bit
  rw [Memory.read_putBit]
  by_cases h : c = a
  · subst h; simp [getLsbD_putBit _ _ hi]
  · simp [h]

/-! ### The loop -/

/-- Where a source pixel goes: byte and bit. -/
def Geometry.place (g : Geometry) (xy : Nat × Nat) : Nat × Nat :=
  (bytePos (targetCol g.orient xy.1 xy.2) (targetRow g.orient g.h xy.1 xy.2) g.w,
    bitPos (targetCol g.orient xy.1 xy.2))

/-- The bit a source pixel contributes. -/
def Geometry.value (g : Geometry) (mode : Mode) (sample : Nat → Byte) (p : Plane) (xy : Nat × Nat) :
    Bool :=
  planeBit p (quantise mode (sample (xy.1 + xy.2 * g.sw)))

section Loop
variable (g : Geometry) (mode : Mode) (sample : Nat → Byte) (p : Plane)

theorem packPixel_eq (m : Memory) (xy : Nat × Nat) :
    packPixel g mode sample p m xy
      = m.putBit (g.place xy).1 (g.place xy).2 (g.value mode sample p xy) := rfl

@[simp] theorem packOver_nil (m : Memory) : packOver g mode sample p m [] = m := rfl

@[simp] theorem packOver_cons (m : Memory) (xy : Nat × Nat) (px : List (Nat × Nat)) :
    packOver g mode sample p m (xy :: px)
      = packOver g mode sample p (packPixel g mode sample p m xy) px := rfl

theorem packOver_wf {m : Memory} (hm : m.wf) (px : List (Nat × Nat)) :
    (packOver g mode sample p m px).wf := by
  induction px generalizing m with
  | nil => exact hm
  | cons xy px ih => exact ih (Memory.putBit_wf hm _ _ _)

/-- A bit that no pixel is sent to is left alone. -/
theorem packOver_bit_untouched {k j : Nat} (hj : j < 8) (px : List (Nat × Nat)) (m : Memory)
    (h : ∀ xy ∈ px, g.place xy ≠ (k, j)) :
    (packOver g mode sample p m px).bit k j = m.bit k j := by
  induction px generalizing m with
  | nil => rfl
  | cons xy px ih =>
    rw [packOver_cons, ih _ fun q hq => h q (List.mem_cons_of_mem _ hq), packPixel_eq,
      Memory.bit_putBit _ _ _ _ _ hj, if_neg]
    intro hkj
    exact h xy List.mem_cons_self (Prod.ext hkj.1.symm hkj.2.symm)

/-- A bit that exactly one pixel value is sent to holds it, whatever the plane and the order were. -/
theorem packOver_bit {k j : Nat} {b : Bool} (hj : j < 8) (px : List (Nat × Nat)) (m : Memory)
    (hmem : ∃ xy ∈ px, g.place xy = (k, j))
    (hval : ∀ xy ∈ px, g.place xy = (k, j) → g.value mode sample p xy = b) :
    (packOver g mode sample p m px).bit k j = b := by
  induction px generalizing m with
  | nil => simp at hmem
  | cons xy px ih =>
    by_cases hrest : ∃ q ∈ px, g.place q = (k, j)
    · exact ih _ hrest fun q hq => hval q (List.mem_cons_of_mem _ hq)
    · push Not at hrest
      obtain ⟨q, hq, hqk⟩ := hmem
      have hxy : g.place xy = (k, j) := by
        rcases List.mem_cons.1 hq with rfl | hq
        · exact hqk
        · exact absurd hqk (hrest q hq)
      rw [packOver_cons, packOver_bit_untouched g mode sample p hj px _ hrest, packPixel_eq,
        Memory.bit_putBit _ _ _ _ _ hj, if_pos ⟨by rw [hxy], by rw [hxy]⟩]
      exact hval xy List.mem_cons_self hxy

/-- A byte holds a value after the loop when it did before or when some pixel is sent to it. -/
theorem packOver_isSome (k : Nat) (px : List (Nat × Nat)) (m : Memory) :
    ((packOver g mode sample p m px).read k).isSome
      ↔ (m.read k).isSome ∨ ∃ xy ∈ px, (g.place xy).1 = k := by
  induction px generalizing m with
  | nil => simp
  | cons xy px ih =>
    rw [packOver_cons, ih, packPixel_eq, Memory.read_putBit]
    by_cases h : k = (g.place xy).1
    · subst h; simp
    · have h' : ¬ (g.place xy).1 = k := fun e => h e.symm
      simp [h, h']

/-- The loop depends on the samples of its own pixels only. -/
theorem packOver_congr {sample' : Nat → Byte} (px : List (Nat × Nat)) (m : Memory)
    (h : ∀ xy ∈ px, sample (xy.1 + xy.2 * g.sw) = sample' (xy.1 + xy.2 * g.sw)) :
    packOver g mode sample p m px = packOver g mode sample' p m px := by
  induction px generalizing m with
  | nil => rfl
  | cons xy px ih =>
    rw [packOver_cons, packOver_cons]
    have hx : packPixel g mode sample p m xy = packPixel g mode sample' p m xy := by
      unfold packPixel; simp only [h xy List.mem_cons_self]
    rw [hx]
    exact ih _ fun q hq => h q (List.mem_cons_of_mem _ hq)

end Loop

/-- The source pixels are those inside the raster. -/
theorem mem_pixels {sw sh x y : Nat} : (x, y) ∈ pixels sw sh ↔ x < sw ∧ y < sh := by
  simp [pixels, and_comm]

end Sys2Proof.Machine
end

