-- ==== Sys2Proof/Laws/Geometry.lean ====
section
/-! SUPPORT. The map from source pixels to bits of a plane is one-to-one and onto (spec/41_encode.md R77),
and what follows for a packed plane. -/

namespace Sys2Proof.Machine

/-! ### Where a pixel goes, in numbers -/

theorem Geometry.place_direct {g : Geometry} (ho : g.orient = .direct) (x y : Nat) :
    g.place (x, y) = ((x + y * g.w) / 8, 7 - x % 8) := by
  simp [Geometry.place, targetCol, targetRow, ho, bytePos, bitPos, Config.gran]

theorem Geometry.place_rotated {g : Geometry} (ho : g.orient = .rotated) (x y : Nat) :
    g.place (x, y) = ((y + (g.h - x - 1) * g.w) / 8, 7 - y % 8) := by
  simp [Geometry.place, targetCol, targetRow, ho, bytePos, bitPos, Config.gran]

theorem Geometry.place_bit_lt (g : Geometry) (xy : Nat × Nat) : (g.place xy).2 < 8 := by
  unfold Geometry.place bitPos; omega

/-- The matched sizes of an orientation that was found. -/
theorem State.geometry_matched {s : State} {o : Orient} (h : s.orient = some o) :
    (s.geometry o).matched := by
  unfold State.orient orientation at h
  unfold Geometry.matched State.geometry
  split_ifs at h with h1 h2 <;> cases h <;> simpa

/-- A row of `8 * v` pixels takes `v` bytes. -/
theorem bytePos_rows (v c r : Nat) : (c + r * (8 * v)) / 8 = c / 8 + r * v := by
  rw [show c + r * (8 * v) = c + 8 * (r * v) by ring, Nat.add_mul_div_left _ _ (by norm_num)]

/-- With `W mod 8 = 0`, byte and bit give back the column and the row. -/
theorem position_inj {w c r c' r' : Nat} (hw : w % 8 = 0) (hc : c < w) (hc' : c' < w)
    (hbyte : (c + r * w) / 8 = (c' + r' * w) / 8) (hbit : 7 - c % 8 = 7 - c' % 8) :
    c = c' ∧ r = r' := by
  obtain ⟨v, rfl⟩ : ∃ v, w = 8 * v := ⟨w / 8, by omega⟩
  rw [bytePos_rows, bytePos_rows] at hbyte
  have hv : 0 < v := by omega
  have row : ∀ a b : Nat, a < v → (a + b * v) / v = b := fun a b ha => by
    rw [Nat.add_mul_div_right _ _ hv, Nat.div_eq_of_lt ha, Nat.zero_add]
  have hr : r = r' := by
    rw [← row (c / 8) r (by omega), ← row (c' / 8) r' (by omega), hbyte]
  subst hr
  exact ⟨by omega, rfl⟩

section Bijection
variable {g : Geometry} (hm : g.matched) (hw : g.w % 8 = 0)
include hm hw

/-- Two source pixels never share a bit. -/
theorem Geometry.place_inj {x y x' y' : Nat} (hx : x < g.sw) (hy : y < g.sh) (hx' : x' < g.sw)
    (hy' : y' < g.sh) (h : g.place (x, y) = g.place (x', y')) : x = x' ∧ y = y' := by
  unfold Geometry.matched at hm
  cases ho : g.orient with
  | direct =>
    rw [ho] at hm
    obtain ⟨h1, h2⟩ := hm
    rw [Geometry.place_direct ho, Geometry.place_direct ho, Prod.mk.injEq] at h
    exact position_inj hw (by omega) (by omega) h.1 h.2
  | rotated =>
    rw [ho] at hm
    obtain ⟨h1, h2⟩ := hm
    rw [Geometry.place_rotated ho, Geometry.place_rotated ho, Prod.mk.injEq] at h
    have := position_inj hw (by omega) (by omega) h.1 h.2
    omega

/-- Every pixel goes to one of the `N` bytes. -/
theorem Geometry.place_lt {x y : Nat} (hx : x < g.sw) (hy : y < g.sh) :
    (g.place (x, y)).1 < g.w * g.h / 8 := by
  obtain ⟨v, hv⟩ : ∃ v, g.w = 8 * v := ⟨g.w / 8, by omega⟩
  have inside : ∀ c r, c < g.w → r < g.h → (c + r * g.w) / 8 < g.w * g.h / 8 := by
    intro c r hc hr
    rw [hv] at hc ⊢
    rw [bytePos_rows, show 8 * v * g.h = 8 * (v * g.h) by ring,
      Nat.mul_div_cancel_left _ (by norm_num)]
    have h1 : v * (r + 1) ≤ v * g.h := Nat.mul_le_mul_left _ hr
    have h2 : v * (r + 1) = r * v + v := by ring
    omega
  unfold Geometry.matched at hm
  cases ho : g.orient with
  | direct =>
    rw [ho] at hm
    rw [Geometry.place_direct ho]
    exact inside _ _ (by omega) (by omega)
  | rotated =>
    rw [ho] at hm
    rw [Geometry.place_rotated ho]
    exact inside _ _ (by omega) (by omega)

/-- Every bit of the `N` bytes has a source pixel, whose index is that of the closed form (R78). -/
theorem Geometry.place_surj {k j : Nat} (hk : k < g.w * g.h / 8) (hj : j < 8) :
    ∃ x y, x < g.sw ∧ y < g.sh ∧ g.place (x, y) = (k, j) ∧ x + y * g.sw = gatherIndex g k j := by
  have hl : 8 * k + (7 - j) < g.w * g.h := by omega
  have hw0 : 0 < g.w := by
    rcases Nat.eq_zero_or_pos g.w with h | h
    · rw [h] at hl; simp at hl
    · exact h
  have hc : (8 * k + (7 - j)) % g.w < g.w := Nat.mod_lt _ hw0
  have hr : (8 * k + (7 - j)) / g.w < g.h := Nat.div_lt_of_lt_mul hl
  have hlin : (8 * k + (7 - j)) % g.w + (8 * k + (7 - j)) / g.w * g.w = 8 * k + (7 - j) := by
    rw [mul_comm _ g.w]; exact Nat.mod_add_div _ _
  have hmod : (8 * k + (7 - j)) % g.w % 8 = 7 - j := by
    rw [Nat.mod_mod_of_dvd _ (Nat.dvd_of_mod_eq_zero hw)]; omega
  unfold Geometry.matched at hm
  cases ho : g.orient with
  | direct =>
    rw [ho] at hm
    obtain ⟨h1, h2⟩ := hm
    refine ⟨(8 * k + (7 - j)) % g.w, (8 * k + (7 - j)) / g.w, by omega, by omega, ?_, ?_⟩
    · rw [Geometry.place_direct ho, hlin, hmod]; congr 1 <;> omega
    · simp only [gatherIndex, ho, h1]
  | rotated =>
    rw [ho] at hm
    obtain ⟨h1, h2⟩ := hm
    generalize hq : (8 * k + (7 - j)) / g.w = q at *
    generalize hc' : (8 * k + (7 - j)) % g.w = c at *
    refine ⟨g.h - 1 - q, c, by omega, by omega, ?_, ?_⟩
    · rw [Geometry.place_rotated ho, hmod, show g.h - (g.h - 1 - q) - 1 = q by omega, hlin]
      congr 1 <;> omega
    · simp only [gatherIndex, ho, h1, hq, hc']

/-! ### A packed plane -/

section Packed
variable (mode : Mode) (sample : Nat → Byte) (p : Plane) (m : Memory) {px : List (Nat × Nat)}
  (hpx : px.Perm (pixels g.sw g.sh))
include hpx

/-- The bit a pixel is sent to holds its value, whatever the plane held and in whatever order. -/
theorem packOver_bit_of_pixel {x y k j : Nat} (hx : x < g.sw) (hy : y < g.sh)
    (hp : g.place (x, y) = (k, j)) :
    (packOver g mode sample p m px).bit k j = g.value mode sample p (x, y) := by
  have hj : j < 8 := by have := g.place_bit_lt (x, y); rwa [hp] at this
  refine packOver_bit g mode sample p hj px m
    ⟨(x, y), hpx.mem_iff.2 (mem_pixels.2 ⟨hx, hy⟩), hp⟩ ?_
  rintro ⟨x', y'⟩ hmem hp'
  obtain ⟨hx', hy'⟩ := mem_pixels.1 (hpx.mem_iff.1 hmem)
  obtain ⟨rfl, rfl⟩ := Geometry.place_inj hm hw hx' hy' hx hy (hp'.trans hp.symm)
  rfl

/-- After the loop the `N` bytes hold a value, and no others but those that did before. -/
theorem packOver_isSome_iff (k : Nat) :
    ((packOver g mode sample p m px).read k).isSome = true
      ↔ (m.read k).isSome = true ∨ k < g.w * g.h / 8 := by
  rw [packOver_isSome]
  refine or_congr Iff.rfl ⟨?_, fun hk => ?_⟩
  · rintro ⟨⟨x, y⟩, hmem, rfl⟩
    obtain ⟨hx, hy⟩ := mem_pixels.1 (hpx.mem_iff.1 hmem)
    exact Geometry.place_lt hm hw hx hy
  · obtain ⟨x, y, hx, hy, hp, -⟩ := Geometry.place_surj hm hw hk (j := 0) (by norm_num)
    exact ⟨(x, y), hpx.mem_iff.2 (mem_pixels.2 ⟨hx, hy⟩), by rw [hp]⟩

end Packed

/-- A command's plane holds a value exactly at the `N` bytes. -/
theorem packPlane_isSome_iff (mode : Mode) (sample : Nat → Byte) (p : Plane) (k : Nat) :
    ((packPlane g mode sample p).read k).isSome = true ↔ k < g.w * g.h / 8 := by
  refine (packOver_isSome_iff hm hw mode sample p [] (List.Perm.refl _) k).trans ?_
  simp

/-- A command's plane at the byte and bit of a pixel. -/
theorem packPlane_bit (mode : Mode) (sample : Nat → Byte) (p : Plane) {x y k j : Nat} (hx : x < g.sw)
    (hy : y < g.sh) (hp : g.place (x, y) = (k, j)) :
    ∃ b, (packPlane g mode sample p).read k = some b ∧
      b.getLsbD j = g.value mode sample p (x, y) := by
  have hk : k < g.w * g.h / 8 := by have := Geometry.place_lt hm hw hx hy; rwa [hp] at this
  obtain ⟨b, hb⟩ := Option.isSome_iff_exists.1 ((packPlane_isSome_iff hm hw mode sample p k).2 hk)
  refine ⟨b, hb, ?_⟩
  rw [← packOver_bit_of_pixel hm hw mode sample p [] (List.Perm.refl _) hx hy hp]
  show _ = (packPlane g mode sample p).bit k j
  simp [Memory.bit, hb]

/-- A command's plane lists its `N` bytes and no other. -/
theorem packPlane_lists (mode : Mode) (sample : Nat → Byte) (p : Plane) :
    (packPlane g mode sample p).lists (g.w * g.h / 8) :=
  Memory.lists_of_reads (packOver_wf g mode sample p List.Pairwise.nil _)
    (packPlane_isSome_iff hm hw mode sample p)

end Bijection

@[simp] theorem State.encodedIn_p0 (s : State) (mode : Mode) (o : Orient) :
    (s.encodedIn mode o).p0 = packPlane (s.geometry o) mode s.sample .p0 := rfl

@[simp] theorem State.encodedIn_p1 (s : State) (mode : Mode) (o : Orient) :
    (s.encodedIn mode o).p1 = packPlane (s.geometry o) mode s.sample .p1 := rfl

@[simp] theorem State.encodedIn_plane (s : State) (mode : Mode) (o : Orient) (p : Plane) :
    (s.encodedIn mode o).plane p = packPlane (s.geometry o) mode s.sample p := by cases p <;> rfl

end Sys2Proof.Machine
end

