-- ==== Sys2Proof/Laws/Controller.lean ====
section
/-! SUPPORT. What the controller's procedures can answer, and that an encoder call through the block's
transactions is the ENC command on the loaded raster. -/

namespace Sys2Proof.Machine

/-! ### Sequencing -/

@[simp] theorem Call.andThen_next {α β : Type} (a : α) (f : α → Call β) :
    Call.andThen (.next a) f = f a := rfl

/-- A sequence that answers went on after its first part. -/
theorem Call.andThen_inv {α β : Type} {o : Call α} {f : α → Call β} {b : β}
    (h : Call.andThen o f = .next b) : ∃ a, o = .next a ∧ f a = .next b := by
  cases o with
  | next a => exact ⟨a, rfl, h⟩
  | fault x => cases h
  | refused x => cases h

theorem onBlock_inv {α : Type} {o : Host.Outcome α Fault Refusal} {a : α}
    (h : onBlock o = .next a) : o = .next a := by
  cases o with
  | next a => cases h; rfl
  | fault x => cases x
  | refused x => cases h

theorem Controller.whenActive_inv {c : Controller} {body : Call (Controller × CallResult)}
    {r : Controller × CallResult} (h : c.whenActive body = .next r) :
    c.lifecycle = .active ∧ body = .next r := by
  unfold Controller.whenActive at h
  cases hl : c.lifecycle <;> rw [hl] at h <;> first | exact ⟨rfl, h⟩ | cases h

theorem Controller.whenActive_eq {c : Controller} (h : c.lifecycle = .active)
    (body : Call (Controller × CallResult)) : c.whenActive body = body := by
  unfold Controller.whenActive; rw [h]

theorem toWord_eq {n : Nat} (h : n < 65536) : toWord n = .next (BitVec.ofNat 16 n) := if_pos h

theorem toWord_inv {n : Nat} {w : Word} (h : toWord n = .next w) : n < 65536 ∧ w.toNat = n := by
  unfold toWord at h
  split_ifs at h with hn
  cases h
  exact ⟨hn, by simp; omega⟩

/-! ### Loading a raster and running a command -/

theorem runAll_append (xs ys : List Transaction) (s : State) :
    runAll (xs ++ ys) s =
      match runAll xs s with
      | .next s' => runAll ys s'
      | .fault f => .fault f
      | .refused r => .refused r := by
  induction xs generalizing s with
  | nil => rfl
  | cons t xs ih =>
    simp only [List.cons_append, runAll]
    cases transact t s with
    | next s' => exact ih s'
    | fault f => rfl
    | refused r => rfl

theorem runAll_single (t : Transaction) (s : State) : runAll [t] s = transact t s := by
  unfold runAll; cases transact t s <;> rfl

/-- The bytes `bs` written from index `a` on. -/
def Memory.writeAll : Memory → Nat → List Byte → Memory
  | m, _, [] => m
  | m, a, b :: bs => Memory.writeAll (m.write a b) (a + 1) bs

theorem runAll_samples (bs : List Byte) (a : Nat) (s : State) (h : a + bs.length ≤ Config.maxPix) :
    runAll (samplesScript a bs) s = .next { s with src := s.src.writeAll a bs } := by
  induction bs generalizing a s with
  | nil => rfl
  | cons b bs ih =>
    have ha : a < Config.maxPix := by simp at h; omega
    have hrest : a + 1 + bs.length ≤ Config.maxPix := by simp at h; omega
    simp only [samplesScript, runAll, transact, hostWriteSrc, if_pos ha]
    exact ih (a + 1) _ hrest

/-- The block with a raster loaded and the target set. -/
def State.loaded (s : State) (sizes : EncRegs) (bs : List Byte) : State :=
  { s with enc := sizes, src := s.src.writeAll 0 bs }

/-- `RASTER`, `TARGET` and an ENC command are that command on the loaded state. -/
theorem runAll_encode (s : State) (rw rh tw th : Word) (bs : List Byte) (k : BitVec 4)
    (h : bs.length ≤ Config.maxPix) :
    runAll (rasterScript rw rh bs ++ targetScript tw th ++ encScript k) s
      = command (commandOf 1#4 k) (s.loaded ⟨rw, rh, tw, th⟩ bs) := by
  have hs : ∀ u : State, runAll (samplesScript 0 bs) u = .next { u with src := u.src.writeAll 0 bs } :=
    fun u => runAll_samples bs 0 u (by omega)
  rw [runAll_append, runAll_append]
  have hr : runAll (rasterScript rw rh bs) s
      = .next { s with
          enc := { s.enc with srcW := rw, srcH := rh }, src := s.src.writeAll 0 bs } := hs _
  rw [hr]
  exact runAll_single _ _

@[simp] theorem modeOf_modeCode (mode : Mode) : modeOf (modeCode mode) = some mode := by
  cases mode <;> rfl

theorem eq_modeCode {m : BitVec 4} {mode : Mode} (h : modeOf m = some mode) : m = modeCode mode := by
  unfold modeOf at h
  split_ifs at h with h0 h1 h2 h3 <;> cases h <;> assumption

/-- The codes 0 to 3 are those of the modes. -/
theorem modeOf_of_le {m : BitVec 4} (h : m.toNat ≤ 3) : ∃ mode, modeOf m = some mode := by
  cases hm : modeOf m with
  | some mode => exact ⟨mode, rfl⟩
  | none =>
    have : ∀ k : BitVec 4, modeOf k = none → ¬ k.toNat ≤ 3 := by decide
    exact absurd h (this m hm)

/-- `ENC #<k>` is the common body with that mode. -/
theorem command_enc (m : BitVec 4) (s : State) : command (commandOf 1#4 m) s = encodeBody m s := by
  have hd : ∀ k : BitVec 4, decode (commandOf 1#4 k) = .instr (decodeEncode k) := by decide
  unfold command
  rw [hd m]
  show exec (decodeEncode m) s = encodeBody m s
  unfold decodeEncode
  split_ifs with h0 h1 h2 h3 <;> subst_vars <;> rfl

theorem encodeBody_of_mode {m : BitVec 4} {mode : Mode} (h : modeOf m = some mode) (s : State) :
    encodeBody m s = encodeMode mode s := by unfold encodeBody; rw [h]

/-! ### Reading planes back -/

/-- What reads of planes leave of a block: all but what they returned and the fault bit. -/
structure State.ReadOf (s t : State) : Prop where
  status : t.status = s.status
  plane : ∀ p, t.plane p = s.plane p
  faulted : t.faulted = s.faulted

/-- Bytes that all hold a value are read, and no fault comes of it. -/
theorem readPlaneBytes_completes {p : Plane} {s : State} (hv : s.status.pValid = true) (n a : Nat)
    (hcap : a + n ≤ Config.maxPlane)
    (h : ∀ k, k < a + n → ((s.plane p).read k).isSome = true) :
    ∃ bs t, readPlaneBytes p a n s = .next (bs, t) ∧ s.ReadOf t := by
  induction n generalizing a s with
  | zero => exact ⟨[], s, rfl, ⟨rfl, fun _ => rfl, rfl⟩⟩
  | succ n ih =>
    obtain ⟨v, hr⟩ := Option.isSome_iff_exists.1 (h a (by omega))
    have hval : s.planeValue p a = some v := by unfold State.planeValue; rw [if_pos hv, hr]
    have hb : hostReadPlane p a s = .next (s.give (.byte v)) := by
      unfold hostReadPlane; rw [if_pos (show a < Config.maxPlane by omega), hval]; simp
    have hp : ∀ q, (s.give (.byte v)).plane q = s.plane q := fun q => by cases q <;> rfl
    obtain ⟨bs, t, ht, hof⟩ := ih (s := s.give (.byte v)) hv (a + 1) (by omega)
      fun k hk => by rw [hp]; exact h k (by omega)
    refine ⟨s.planeByte p a :: bs, t, ?_, ⟨hof.status, fun q => (hof.plane q).trans (hp q), hof.faulted⟩⟩
    simp only [readPlaneBytes, hb, onBlock, Call.andThen_next, ht]

/-! ### The encoder call -/

/-- The sizes and samples the host writes for an encoder call. -/
def State.forEncode (b : State) (r : Raster) (w h : Nat) : State :=
  b.loaded ⟨BitVec.ofNat 16 r.width, BitVec.ofNat 16 r.height, BitVec.ofNat 16 w, BitVec.ofNat 16 h⟩
    (r.samples.take Config.maxPix)

/-- An encoder call of representable sizes is the ENC command on the loaded state. -/
theorem encodeOnBlock_eq {r : Raster} (hr : r.wf) {w h : Nat} (hrw : r.width < 65536)
    (hrh : r.height < 65536) (hw : w < 65536) (hh : h < 65536) (b : State) (m : BitVec 4) :
    encodeOnBlock b r w h m =
      Call.andThen (onBlock (encodeBody m (b.forEncode r w h))) fun b' =>
        match b'.status.err with
        | some e => .next (.raised e b')
        | none =>
          Call.andThen (readPlaneBytes .p0 0 (planeLength w h) b') fun r0 =>
          Call.andThen (readPlaneBytes .p1 0 (planeLength w h) r0.2) fun r1 =>
          .next (.planes r0.1 r1.1 r1.2) := by
  unfold encodeOnBlock
  rw [if_pos hr, toWord_eq hrw, toWord_eq hrh, toWord_eq hw, toWord_eq hh]
  simp only [Call.andThen_next]
  rw [runAll_encode _ _ _ _ _ _ _ (by simp), command_enc]
  rfl

theorem State.forEncode_orient (b : State) {r : Raster} {w h : Nat} (hrw : r.width < 65536)
    (hrh : r.height < 65536) (hw : w < 65536) (hh : h < 65536) :
    (b.forEncode r w h).orient = orientation r.width r.height w h := by
  have e : ∀ {n : Nat}, n < 65536 → (BitVec.ofNat 16 n).toNat = n := fun hn => by simp; omega
  unfold State.orient State.forEncode State.loaded
  rw [e hrw, e hrh, e hw, e hh]

/-- An encoder call with matching sizes and an admitted target gives both planes, and reads nothing that
holds no value. -/
theorem encodeOnBlock_completes (b : State) {r : Raster} (hr : r.wf) {w h : Nat} {m : BitVec 4}
    {mode : Mode} (hm : modeOf m = some mode)
    (hrw : r.width < 65536) (hrh : r.height < 65536) (hw : w < 65536) (hh : h < 65536)
    {o : Orient} (ho : orientation r.width r.height w h = some o) (h8 : w % 8 = 0)
    (hcap : w * h ≤ Config.maxPix) :
    ∃ p0 p1 b', encodeOnBlock b r w h m = .next (.planes p0 p1 b') ∧ b'.faulted = b.faulted := by
  have e : ∀ {n : Nat}, n < 65536 → (BitVec.ofNat 16 n).toNat = n := fun hn => by simp; omega
  have horient : (b.forEncode r w h).orient = some o :=
    (State.forEncode_orient b hrw hrh hw hh).trans ho
  have hadm : (b.forEncode r w h).geometryAdmitted := by
    show (BitVec.ofNat 16 w).toNat % 8 = 0 ∧ (BitVec.ofNat 16 w).toNat * (BitVec.ofNat 16 h).toNat ≤ _
    rw [e hw, e hh]; exact ⟨h8, hcap⟩
  have hx : encodeMode mode (b.forEncode r w h) = .next ((b.forEncode r w h).encodedIn mode o) := by
    obtain ⟨i, hi⟩ : ∃ i, encModeOf i = some mode := by
      cases mode
      exacts [⟨.encMono, rfl⟩, ⟨.encGray4, rfl⟩, ⟨.encPart, rfl⟩, ⟨.encFast, rfl⟩]
    rw [← exec_eq_encodeMode hi]
    exact exec_completes hi hadm horient
  rw [encodeOnBlock_eq hr hrw hrh hw hh, encodeBody_of_mode hm, hx]
  have hsome : ∀ p k, k < 0 + planeLength w h →
      ((((b.forEncode r w h).encodedIn mode o).plane p).read k).isSome = true := by
    intro p k hk
    rw [State.encodedIn_plane]
    refine (packPlane_isSome_iff (State.geometry_matched horient) hadm.1 mode _ p k).2 ?_
    show k < (BitVec.ofNat 16 w).toNat * (BitVec.ofNat 16 h).toNat / 8
    rw [e hw, e hh]; simpa [planeLength] using hk
  have hlen : 0 + planeLength w h ≤ Config.maxPlane := by
    unfold planeLength Config.maxPlane; omega
  obtain ⟨bs0, t0, h0, of0⟩ := readPlaneBytes_completes (p := .p0)
    (s := (b.forEncode r w h).encodedIn mode o) rfl (planeLength w h) 0 hlen (hsome .p0)
  obtain ⟨bs1, t1, h1, of1⟩ := readPlaneBytes_completes (p := .p1) (s := t0)
    (by rw [of0.status]; rfl) (planeLength w h) 0 hlen (fun k hk => by rw [of0.plane]; exact hsome .p1 k hk)
  have herr : ((b.forEncode r w h).encodedIn mode o).status.err = none := rfl
  exact ⟨bs0, bs1, t1, by simp only [onBlock, Call.andThen_next, herr, h0, h1],
    (of1.faulted.trans of0.faulted).trans rfl⟩

/-- An encoder call with a mode that is none of the four raises InvalidMode. -/
theorem encodeOnBlock_invalidMode (b : State) {r : Raster} (hr : r.wf) {w h : Nat} {m : BitVec 4}
    (hm : modeOf m = none) (hrw : r.width < 65536) (hrh : r.height < 65536) (hw : w < 65536)
    (hh : h < 65536) :
    encodeOnBlock b r w h m
      = .next (.raised .invalidMode ((b.forEncode r w h).raise .invalidMode)) := by
  rw [encodeOnBlock_eq hr hrw hrh hw hh]
  unfold encodeBody
  rw [hm]
  rfl

/-- An encoder call that gave planes had one of the four modes, and a raster whose sizes match. -/
theorem encodeOnBlock_planes {b : State} {r : Raster} {w h : Nat} {m : BitVec 4}
    {p0 p1 : List Byte} {b' : State} (hc : encodeOnBlock b r w h m = .next (.planes p0 p1 b')) :
    r.wf ∧ (∃ mode, modeOf m = some mode) ∧ ∃ o, orientation r.width r.height w h = some o := by
  have hr : r.wf := by
    by_contra hr; unfold encodeOnBlock at hc; rw [if_neg hr] at hc; cases hc
  refine ⟨hr, ?_⟩
  have hrep : r.width < 65536 ∧ r.height < 65536 ∧ w < 65536 ∧ h < 65536 := by
    unfold encodeOnBlock at hc
    rw [if_pos hr] at hc
    obtain ⟨a1, e1, hc⟩ := Call.andThen_inv hc
    obtain ⟨a2, e2, hc⟩ := Call.andThen_inv hc
    obtain ⟨a3, e3, hc⟩ := Call.andThen_inv hc
    obtain ⟨a4, e4, hc⟩ := Call.andThen_inv hc
    exact ⟨(toWord_inv e1).1, (toWord_inv e2).1, (toWord_inv e3).1, (toWord_inv e4).1⟩
  obtain ⟨hrw, hrh, hw, hh⟩ := hrep
  cases hm : modeOf m with
  | none => rw [encodeOnBlock_invalidMode b hr hm hrw hrh hw hh] at hc; cases hc
  | some mode =>
    refine ⟨⟨mode, rfl⟩, ?_⟩
    rw [encodeOnBlock_eq hr hrw hrh hw hh, encodeBody_of_mode hm] at hc
    obtain ⟨s', hs', hc⟩ := Call.andThen_inv hc
    have hs' := onBlock_inv hs'
    rcases encodeMode_cases mode (b.forEncode r w h) with
      ⟨-, h1⟩ | ⟨-, -, h1⟩ | ⟨-, -, -, h1⟩ | ⟨-, o, ho, -⟩
    · rw [h1] at hs'
      cases hs'
      simp at hc
    · rw [h1] at hs'; cases hs'
    · rw [h1] at hs'; cases hs'
    · exact ⟨o, by rw [← State.forEncode_orient b hrw hrh hw hh]; exact ho⟩

/-! ### Waiting for the panel -/

@[simp] theorem Controller.emit_retained (c : Controller) (l : List TransportCall) :
    (c.emit l).retained = c.retained := rfl
@[simp] theorem Controller.emit_lifecycle (c : Controller) (l : List TransportCall) :
    (c.emit l).lifecycle = c.lifecycle := rfl
@[simp] theorem Controller.emit_block (c : Controller) (l : List TransportCall) :
    (c.emit l).block = c.block := rfl
@[simp] theorem Controller.emit_calls (c : Controller) (l : List TransportCall) :
    (c.emit l).calls = c.calls ++ l := rfl
@[simp] theorem Controller.emit_waitsLeft (c : Controller) (l : List TransportCall) :
    (c.emit l).waitsLeft = c.waitsLeft := rfl
theorem Controller.emit_emit (c : Controller) (l l' : List TransportCall) :
    (c.emit l).emit l' = c.emit (l ++ l') := by simp [Controller.emit]

/-- All that a wait can do: end, which only the count of waits shows, or never end. -/
theorem Controller.waitIdle_cases (c : Controller) :
    (c.waitsLeft ≠ some 0 ∧
      ∃ w, (c.waitsLeft = none → w = none) ∧
        c.waitIdle = .next { c.emit [.waitIdle] with waitsLeft := w }) ∨
      (c.waitsLeft = some 0 ∧ c.waitIdle = .fault (.waitsForever (c.emit [.waitIdle]))) := by
  unfold Controller.waitIdle
  match h : c.waitsLeft with
  | none => exact .inl ⟨by simp, none, fun _ => rfl, by simp [Controller.emit, h]⟩
  | some 0 => exact .inr ⟨rfl, rfl⟩
  | some (n + 1) => exact .inl ⟨by simp, some n, by simp, rfl⟩

/-- All that a sequence of Transport calls can do: make them all, or reach a wait that never ends. -/
theorem Controller.perform_cases (ts : List TransportCall) (c : Controller) :
    (∃ w, (c.waitsLeft = none → w = none) ∧
        c.perform ts = .next { c.emit ts with waitsLeft := w }) ∨
      (c.waitsLeft ≠ none ∧ ∃ sent, c.perform ts
        = .fault (.waitsForever { c.emit (sent ++ [.waitIdle]) with waitsLeft := some 0 })) := by
  induction ts generalizing c with
  | nil => exact .inl ⟨c.waitsLeft, id, by simp [Controller.perform, Controller.emit]⟩
  | cons t ts ih =>
    unfold Controller.perform
    split_ifs with ht
    · subst ht
      rcases c.waitIdle_cases with ⟨-, w, hw, he⟩ | ⟨h0, he⟩
      · rw [he, Call.andThen_next]
        rcases ih { c.emit [.waitIdle] with waitsLeft := w } with ⟨w', hw', h⟩ | ⟨hn, sent, h⟩
        · exact .inl ⟨w', fun hc => hw' (hw hc), by rw [h]; simp [Controller.emit]⟩
        · exact .inr ⟨fun hc => hn (hw hc), .waitIdle :: sent, by rw [h]; simp [Controller.emit]⟩
      · refine .inr ⟨by simp [h0], [], ?_⟩
        rw [he]; simp [Call.andThen, Controller.emit, h0]
    · rcases ih (c.emit [t]) with ⟨w', hw', h⟩ | ⟨hn, sent, h⟩
      · exact .inl ⟨w', hw', by rw [h]; simp [Controller.emit]⟩
      · exact .inr ⟨hn, t :: sent, by rw [h]; simp [Controller.emit]⟩

/-- All that an update of the panel can do. -/
theorem Controller.updatePanel_cases (c : Controller) (m : BitVec 4) (body : List TransportCall)
    (finish : Controller → Controller) :
    (modeOf m = none ∧ c.updatePanel m body finish = .next (c, .raised .invalidMode)) ∨
      ∃ mode, modeOf m = some mode ∧
        ((c.waitsLeft ≠ some 0 ∧ ∃ w, c.updatePanel m body finish
            = .next (finish { c.emit (lutCalls mode ++ body ++ refresh) with waitsLeft := w }, .returned)) ∨
          (c.waitsLeft = some 0 ∧ c.updatePanel m body finish
            = .fault (.waitsForever (c.emit (lutCalls mode ++ body ++ refresh))))) := by
  unfold Controller.updatePanel setLut
  cases hm : modeOf m with
  | none => exact .inl ⟨rfl, rfl⟩
  | some mode =>
    refine .inr ⟨mode, rfl, ?_⟩
    show (_ ∧ ∃ w, Call.andThen (Controller.waitIdle _) _ = _) ∨
      (_ ∧ Call.andThen (Controller.waitIdle _) _ = _)
    rcases (c.emit (lutCalls mode ++ body ++ [send .displayRefresh])).waitIdle_cases with
      ⟨h0, w, -, he⟩ | ⟨h0, he⟩
    · exact .inl ⟨h0, w, by rw [he, Call.andThen_next, Controller.emit_emit]; simp [refresh]⟩
    · exact .inr ⟨h0, by rw [he, Controller.emit_emit]; simp [Call.andThen, refresh]⟩

/-- An update that answers. -/
theorem Controller.updatePanel_inv {c : Controller} {m : BitVec 4} {body : List TransportCall}
    {finish : Controller → Controller} {r : Controller × CallResult}
    (h : c.updatePanel m body finish = .next r) :
    (modeOf m = none ∧ r = (c, .raised .invalidMode)) ∨
      ∃ mode w, modeOf m = some mode ∧
        r = (finish { c.emit (lutCalls mode ++ body ++ refresh) with waitsLeft := w }, .returned) := by
  rcases c.updatePanel_cases m body finish with ⟨hm, he⟩ | ⟨mode, hm, ⟨-, w, he⟩ | ⟨-, he⟩⟩ <;>
    rw [he] at h <;> cases h
  · exact .inl ⟨hm, rfl⟩
  · exact .inr ⟨mode, w, hm, rfl⟩

/-- An update that waits for ever: `finish` has not run. -/
theorem Controller.updatePanel_stuck {c c' : Controller} {m : BitVec 4} {body : List TransportCall}
    {finish : Controller → Controller} (h : c.updatePanel m body finish = .fault (.waitsForever c')) :
    ∃ mode, modeOf m = some mode ∧ c' = c.emit (lutCalls mode ++ body ++ refresh) := by
  rcases c.updatePanel_cases m body finish with ⟨-, he⟩ | ⟨mode, hm, ⟨-, w, he⟩ | ⟨-, he⟩⟩ <;>
    rw [he] at h <;> cases h
  exact ⟨mode, hm, rfl⟩

/-! ### The calls -/

/-- A sequence that waits for ever did so in its first part or after it. -/
theorem Call.andThen_stuck {α β : Type} {o : Call α} {f : α → Call β} {c : Controller}
    (h : Call.andThen o f = .fault (.waitsForever c)) :
    o = .fault (.waitsForever c) ∨ ∃ a, o = .next a ∧ f a = .fault (.waitsForever c) := by
  cases o with
  | next a => exact .inr ⟨a, rfl, h⟩
  | fault x => cases h; exact .inl rfl
  | refused x => cases h

/-- No transaction of the block waits for the panel. -/
theorem onBlock_not_stuck {α : Type} (o : Host.Outcome α Fault Refusal) (c : Controller) :
    onBlock o ≠ .fault (.waitsForever c) := by
  cases o with
  | next a => simp [onBlock]
  | fault x => cases x
  | refused r => simp [onBlock]

theorem toWord_not_stuck (n : Nat) (c : Controller) : toWord n ≠ .fault (.waitsForever c) := by
  unfold toWord; split_ifs <;> simp

theorem readPlaneBytes_not_stuck (p : Plane) (n a : Nat) (s : State) (c : Controller) :
    readPlaneBytes p a n s ≠ .fault (.waitsForever c) := by
  induction n generalizing a s with
  | zero => simp [readPlaneBytes]
  | succ n ih =>
    intro h
    rcases Call.andThen_stuck h with h | ⟨v, -, h⟩
    · exact onBlock_not_stuck _ _ h
    · rcases Call.andThen_stuck h with h | ⟨vs, -, h⟩
      · exact ih _ _ h
      · cases h

theorem encodeOnBlock_not_stuck (b : State) (r : Raster) (w h : Nat) (m : BitVec 4) (c : Controller) :
    encodeOnBlock b r w h m ≠ .fault (.waitsForever c) := by
  intro e
  unfold encodeOnBlock at e
  split_ifs at e
  rcases Call.andThen_stuck e with e | ⟨_, -, e⟩
  · exact toWord_not_stuck _ _ e
  rcases Call.andThen_stuck e with e | ⟨_, -, e⟩
  · exact toWord_not_stuck _ _ e
  rcases Call.andThen_stuck e with e | ⟨_, -, e⟩
  · exact toWord_not_stuck _ _ e
  rcases Call.andThen_stuck e with e | ⟨_, -, e⟩
  · exact toWord_not_stuck _ _ e
  rcases Call.andThen_stuck e with e | ⟨b', -, e⟩
  · exact onBlock_not_stuck _ _ e
  cases he : b'.status.err with
  | some _ => rw [he] at e; cases e
  | none =>
    rw [he] at e
    rcases Call.andThen_stuck e with e | ⟨_, -, e⟩
    · exact readPlaneBytes_not_stuck _ _ _ _ _ e
    rcases Call.andThen_stuck e with e | ⟨_, -, e⟩
    · exact readPlaneBytes_not_stuck _ _ _ _ _ e
    cases e

theorem resolveOnBlock_not_stuck (b : State) (frame pic : Raster) (x y : Nat) (c : Controller) :
    resolveOnBlock b frame pic x y ≠ .fault (.waitsForever c) := by
  intro e
  unfold resolveOnBlock at e
  rcases Call.andThen_stuck e with e | ⟨_, -, e⟩
  · exact toWord_not_stuck _ _ e
  rcases Call.andThen_stuck e with e | ⟨_, -, e⟩
  · exact toWord_not_stuck _ _ e
  rcases Call.andThen_stuck e with e | ⟨_, -, e⟩
  · exact toWord_not_stuck _ _ e
  rcases Call.andThen_stuck e with e | ⟨_, -, e⟩
  · exact toWord_not_stuck _ _ e
  rcases Call.andThen_stuck e with e | ⟨_, -, e⟩
  · exact toWord_not_stuck _ _ e
  rcases Call.andThen_stuck e with e | ⟨_, -, e⟩
  · exact toWord_not_stuck _ _ e
  exact onBlock_not_stuck _ _ e

theorem Controller.whenActive_stuck {c c' : Controller} {body : Call (Controller × CallResult)}
    (h : c.whenActive body = .fault (.waitsForever c')) : body = .fault (.waitsForever c') := by
  unfold Controller.whenActive at h
  cases hl : c.lifecycle <;> rw [hl] at h <;> first | exact h | cases h

/-- All that `displayFrame` can answer. -/
theorem Controller.displayFrame_cases {c : Controller} {raster : Raster} {m : BitVec 4}
    {r : Controller × CallResult} (h : c.displayFrame raster m = .next r) :
    c.lifecycle = .active ∧
    ((∃ e b, r = ({ c with block := b }, .raised e)) ∨
      ∃ new0 new1 b mode w,
        encodeOnBlock c.block raster Config.panelW Config.panelH m = .next (.planes new0 new1 b) ∧
        modeOf m = some mode ∧
        ((mode ≠ .partialRefresh ∧
            r = ({ c.emit (lutCalls mode ++ streamPlanes new0 new1 ++ refresh) with
                    block := b, retained := raster, waitsLeft := w }, .returned)) ∨
          (mode = .partialRefresh ∧ ∃ old0 old1 b',
            encodeOnBlock b c.retained Config.panelW Config.panelH m
              = .next (.planes old0 old1 b') ∧
            r = ({ c.emit (lutCalls mode ++ streamPlanes old0 new1 ++ refresh) with
                    block := b', retained := raster, waitsLeft := w }, .returned)))) := by
  obtain ⟨hl, h⟩ := Controller.whenActive_inv h
  refine ⟨hl, ?_⟩
  obtain ⟨a, h1, h2⟩ := Call.andThen_inv h
  cases a with
  | raised e b => cases h2; exact .inl ⟨e, b, rfl⟩
  | planes n0 n1 b =>
    obtain ⟨-, ⟨mode, hm⟩, -⟩ := encodeOnBlock_planes h1
    simp only at h2
    split_ifs at h2 with hp
    · obtain ⟨a', h3, h4⟩ := Call.andThen_inv h2
      cases a' with
      | raised e b => cases h4; exact .inl ⟨e, b, rfl⟩
      | planes o0 o1 b' =>
        rcases Controller.updatePanel_inv h4 with ⟨hn, -⟩ | ⟨mode', w, hm', rfl⟩
        · rw [hm] at hn; cases hn
        · rw [hm] at hm'; cases hm'
          have : mode = .partialRefresh := by rw [hp, modeOf_modeCode] at hm; cases hm; rfl
          exact .inr ⟨n0, n1, b, mode, w, h1, hm, .inr ⟨this, o0, o1, b', h3, rfl⟩⟩
    · rcases Controller.updatePanel_inv h2 with ⟨hn, -⟩ | ⟨mode', w, hm', rfl⟩
      · rw [hm] at hn; cases hn
      · rw [hm] at hm'; cases hm'
        have : mode ≠ .partialRefresh := fun he => hp (he ▸ eq_modeCode hm)
        exact .inr ⟨n0, n1, b, mode, w, h1, hm, .inl ⟨this, rfl⟩⟩

/-- A `displayFrame` that waits for ever has sent everything and has not yet replaced the frame. -/
theorem Controller.displayFrame_stuck {c c' : Controller} {raster : Raster} {m : BitVec 4}
    (h : c.displayFrame raster m = .fault (.waitsForever c')) :
    ∃ b sent, c' = { c.emit (sent ++ refresh) with block := b } := by
  rcases Call.andThen_stuck (Controller.whenActive_stuck h) with h | ⟨a, -, h⟩
  · exact absurd h (encodeOnBlock_not_stuck _ _ _ _ _ _)
  cases a with
  | raised e b => cases h
  | planes n0 n1 b =>
    simp only at h
    split_ifs at h
    · rcases Call.andThen_stuck h with h | ⟨a', -, h⟩
      · exact absurd h (encodeOnBlock_not_stuck _ _ _ _ _ _)
      cases a' with
      | raised e b => cases h
      | planes o0 o1 b' =>
        obtain ⟨mode, -, rfl⟩ := Controller.updatePanel_stuck h
        exact ⟨b', lutCalls mode ++ streamPlanes o0 n1, rfl⟩
    · obtain ⟨mode, -, rfl⟩ := Controller.updatePanel_stuck h
      exact ⟨b, lutCalls mode ++ streamPlanes n0 n1, rfl⟩

/-- The rectangle of the frame that a resolved block stands for. -/
def State.rect (b : State) : Nat × Nat × Nat × Nat := cropRect (frameTransposed b.res) b.win

/-- All that `partialDisplayFrame` can answer. -/
theorem Controller.partialDisplayFrame_cases {c : Controller} {raster : Raster} {x y : Nat} {m : BitVec 4}
    {r : Controller × CallResult} (h : c.partialDisplayFrame raster x y m = .next r) :
    c.lifecycle = .active ∧ raster.wf ∧
    ((∃ e b, r = ({ c with block := b }, .raised e)) ∨
      ∃ b b' b'' old0 old1 new0 new1 mode w,
        resolveOnBlock c.block c.retained raster x y = .next b ∧ b.status.err = none ∧
        encodeOnBlock b
          (c.retained.crop b.rect.1 b.rect.2.1 b.rect.2.2.1 b.rect.2.2.2)
          b.win.picWAl.toNat b.win.picHAl.toNat m = .next (.planes old0 old1 b') ∧
        encodeOnBlock b'
          ((c.retained.paste raster x y).crop b.rect.1 b.rect.2.1 b.rect.2.2.1 b.rect.2.2.2)
          b.win.picWAl.toNat b.win.picHAl.toNat m = .next (.planes new0 new1 b'') ∧
        modeOf m = some mode ∧ (mode = .partialRefresh ∨ mode = .fast) ∧
        r = ({ c.emit (lutCalls mode ++ partialBody b.win old0 new1 ++ refresh
                  ++ [send .exitPartialMode]) with
                block := b'', retained := c.retained.paste raster x y, waitsLeft := w }, .returned)) := by
  obtain ⟨hl, h⟩ := Controller.whenActive_inv h
  split_ifs at h with h1 h2
  refine ⟨hl, h2, ?_⟩
  obtain ⟨b, h3, h4⟩ := Call.andThen_inv h
  cases he : b.status.err with
  | some e => rw [he] at h4; cases h4; exact .inl ⟨e, b, rfl⟩
  | none =>
    rw [he] at h4
    obtain ⟨a, h5, h6⟩ := Call.andThen_inv h4
    cases a with
    | raised e b => cases h6; exact .inl ⟨e, b, rfl⟩
    | planes o0 o1 b' =>
      obtain ⟨a', h7, h8⟩ := Call.andThen_inv h6
      cases a' with
      | raised e b => cases h8; exact .inl ⟨e, b, rfl⟩
      | planes n0 n1 b'' =>
        obtain ⟨-, ⟨mode, hm⟩, -⟩ := encodeOnBlock_planes h7
        have hpf : mode = .partialRefresh ∨ mode = .fast := by
          have := eq_modeCode hm
          subst this
          cases mode
          exacts [absurd (.inl rfl) h1, absurd (.inr rfl) h1, .inl rfl, .inr rfl]
        rcases Controller.updatePanel_inv h8 with ⟨hn, -⟩ | ⟨mode', w, hm', rfl⟩
        · rw [hm] at hn; cases hn
        · rw [hm] at hm'; cases hm'
          refine .inr ⟨b, b', b'', o0, o1, n0, n1, mode, w, h3, he, h5, h7, hm, hpf, ?_⟩
          simp [Controller.emit]

/-- A `partialDisplayFrame` that waits for ever has sent everything but the return to normal mode, and
has not yet replaced the frame. -/
theorem Controller.partialDisplayFrame_stuck {c c' : Controller} {raster : Raster} {x y : Nat}
    {m : BitVec 4} (h : c.partialDisplayFrame raster x y m = .fault (.waitsForever c')) :
    ∃ b sent, c' = { c.emit (sent ++ refresh) with block := b } := by
  have h := Controller.whenActive_stuck h
  split_ifs at h
  rcases Call.andThen_stuck h with h | ⟨b, -, h⟩
  · exact absurd h (resolveOnBlock_not_stuck _ _ _ _ _ _)
  cases he : b.status.err with
  | some e => rw [he] at h; cases h
  | none =>
    rw [he] at h
    rcases Call.andThen_stuck h with h | ⟨a, -, h⟩
    · exact absurd h (encodeOnBlock_not_stuck _ _ _ _ _ _)
    cases a with
    | raised e b => cases h
    | planes o0 o1 b' =>
      rcases Call.andThen_stuck h with h | ⟨a', -, h⟩
      · exact absurd h (encodeOnBlock_not_stuck _ _ _ _ _ _)
      cases a' with
      | raised e b => cases h
      | planes n0 n1 b'' =>
        obtain ⟨mode, -, rfl⟩ := Controller.updatePanel_stuck h
        exact ⟨b'', lutCalls mode ++ partialBody b.win o0 n1, rfl⟩

/-- A tabulated raster has as many samples as its size says. -/
theorem Raster.tabulate_wf (w h : Nat) (f : Nat → Nat → Byte) : (Raster.tabulate w h f).wf := by
  simp [Raster.wf, Raster.tabulate]

theorem Raster.uniform_wf (w h : Nat) (v : Byte) : (Raster.uniform w h v).wf := by
  simp [Raster.wf, Raster.uniform]

end Sys2Proof.Machine
end

