-- ==== Sys2Proof/Laws/PerInstr.lean ====
section
/-! SUPPORT. The families of statements made constructor by constructor (LAWS.json). -/

namespace Sys2Proof.Laws

/-- A well-formed command has a byte of its own row (spec/30_encoding.md R56): that row selects it, and
no other row does. -/
def Selected.Statement (i : Instr) : Prop :=
  i.wellFormed = true →
    (opcodeMap.filter fun r => r.selects (encode i)).map OpcodeRow.mnemonic = [mnemonicOf i]

theorem Selected.encMono : Selected.Statement .encMono := fun _ => by decide
theorem Selected.encGray4 : Selected.Statement .encGray4 := fun _ => by decide
theorem Selected.encPart : Selected.Statement .encPart := fun _ => by decide
theorem Selected.encFast : Selected.Statement .encFast := fun _ => by decide
theorem Selected.encRsvd4 (mode : BitVec 4) : Selected.Statement (.encRsvd4 mode) := by
  revert mode; unfold Selected.Statement; decide
theorem Selected.encRsvd8 (mode : BitVec 4) : Selected.Statement (.encRsvd8 mode) := by
  revert mode; unfold Selected.Statement; decide
theorem Selected.res : Selected.Statement .res := fun _ => by decide

end Sys2Proof.Laws
end

