-- ==== Sys2Proof/Tests/Slice0.lean ====
section
/-! SUPPORT. The model's own tests. Expected values are the spec's (spec/95_test_vectors.md S, V and
programs; spec/30_encoding.md R56), never the model's. Each test is one step on a small state. The
witness theorems at the end show, for each obligation with hypotheses, concrete inputs that meet them. -/

namespace Sys2Proof.Tests

open Sys2Proof.Machine

/-! ### Helpers -/

/-- The state a step answered, if it answered one. -/
def stateOf (o : Host.Outcome State Fault Refusal) : Option State :=
  match o with
  | .next s => some s
  | _ => none

/-- Why a step was refused, if it was. -/
def refusalOf (o : Host.Outcome State Fault Refusal) : Option Refusal :=
  match o with
  | .refused r => some r
  | _ => none

/-- The fault bit of the run after a step. -/
def faultBit (o : Host.Outcome State Fault Refusal) : Option Bool := (stateOf o).map (·.faulted)

/-- A memory whose first bytes are given. -/
def memoryOf (bs : List Byte) : Memory := bs.zipIdx.map fun p => (p.2, p.1)

/-- From reset: a raster loaded and a target set. -/
def encState (sw sh : Word) (bs : List Byte) (tw th : Word) : State :=
  { State.reset with enc := ⟨sw, sh, tw, th⟩, src := memoryOf bs }

/-- From reset: the six operands of `RES`. -/
def resState (xs ys pw ph rfw rfh : Word) : State :=
  { State.reset with res := ⟨xs, ys, pw, ph, rfw, rfh⟩ }

/-- A raster that is 0 except for the listed (index, sample) pairs. -/
def sparse (n : Nat) (px : List (Nat × Byte)) : List Byte :=
  (List.range n).map fun i => (px.lookup i).getD 0#8

/-- Both planes and `STATUS` after a step. -/
def planesAfter (o : Host.Outcome State Fault Refusal) : Option (List Byte × List Byte × Byte) :=
  (stateOf o).map fun s => (s.p0.map Prod.snd, s.p1.map Prod.snd, s.status.byte)

/-- `STATUS` after a step. -/
def statusAfter (o : Host.Outcome State Fault Refusal) : Option Byte :=
  (stateOf o).map fun s => s.status.byte

/-- The six results and `STATUS` after a step. -/
def windowAfter (o : Host.Outcome State Fault Refusal) : Option (WinRegs × Byte) :=
  (stateOf o).map fun s => (s.win, s.status.byte)

/-! ### Decoding: the bytes of R56, written from `OP` and `MODE` (R50 to R52) -/

theorem test_decode_encMono : decode 0b00010000#8 = .instr .encMono := by decide
theorem test_decode_encGray4 : decode 0b00010001#8 = .instr .encGray4 := by decide
theorem test_decode_encPart : decode 0b00010010#8 = .instr .encPart := by decide
theorem test_decode_encFast : decode 0b00010011#8 = .instr .encFast := by decide
theorem test_decode_encRsvd4 : decode 0b00010111#8 = .instr (.encRsvd4 7#4) := by decide
theorem test_decode_encRsvd8 : decode 0b00011100#8 = .instr (.encRsvd8 12#4) := by decide
theorem test_decode_res : decode 0b00100000#8 = .instr .res := by decide
theorem test_decode_illegal :
    [0x00#8, 0x0F#8, 0x21#8, 0x2F#8, 0x30#8, 0x80#8, 0xFF#8].all
      (fun c => decide (decode c = .rejected .illegalCommand)) = true := by decide

/-! ### The well-formedness checks refuse -/

theorem test_wellFormed_refuses_rsvd4_below : (Instr.encRsvd4 3#4).wellFormed = false := by decide
theorem test_wellFormed_refuses_rsvd4_above : (Instr.encRsvd4 8#4).wellFormed = false := by decide
theorem test_wellFormed_refuses_rsvd8_below : (Instr.encRsvd8 7#4).wellFormed = false := by decide

/-! ### ENC (V7, V11, V12, V14, V17, V22 to V29) -/

/-- V12: a square raster is Direct. -/
theorem test_encMono_V12_square_is_direct :
    planesAfter (exec .encMono (encState 8 8 (sparse 64 [(1, 255)]) 8 8))
      = some ([0x40, 0, 0, 0, 0, 0, 0, 0], [0x40, 0, 0, 0, 0, 0, 0, 0], 0x10) := by
  decide +kernel

/-- V27: the product is a multiple of 8 and the width is not. -/
theorem test_encMono_V27_refused :
    refusalOf (exec .encMono (encState 4 2 [] 4 2)) = some .targetWidthUnaligned := by decide

/-- V11b: a light pixel at each end of a byte, and three grays. -/
theorem test_encGray4_V11b :
    planesAfter (exec .encGray4 (encState 16 2
      (sparse 32 [(0, 255), (7, 255), (8, 255), (15, 255), (17, 255), (25, 200), (26, 100), (27, 70)])
      16 2)) = some ([0x81, 0x81, 0x40, 0x40], [0x81, 0x81, 0x40, 0x70], 0x10) := by
  decide +kernel

theorem test_encGray4_V23_sizeMismatch :
    statusAfter (exec .encGray4 (encState 8 16 [] 16 9)) = some 0x0A := by decide

/-- V14: the two-pixel example the source asks for. -/
theorem test_encPart_V14_rotated :
    planesAfter (exec .encPart (encState 8 16 (sparse 128 [(0, 255), (43, 255)]) 16 8))
      = some ([0, 0, 0, 0, 0, 0, 0, 0, 0x04, 0, 0, 0, 0, 0, 0x80, 0],
          [0, 0, 0, 0, 0, 0, 0, 0, 0x04, 0, 0, 0, 0, 0, 0x80, 0], 0x10) := by
  decide +kernel

theorem test_encPart_V28_refused :
    refusalOf (exec .encPart (encState 400 301 [] 400 301)) = some .targetTooLarge := by decide

/-- V17b: in the Rotated orientation the raster's own width need not be a multiple of 8; samples of 70
and 80 on both sides of the threshold. -/
theorem test_encFast_V17b_rotated :
    planesAfter (exec .encFast (encState 3 8 ((List.range 24).map fun i => BitVec.ofNat 8 (10 * i)) 8 3))
      = some ([0x3F, 0x1F, 0x1F], [0x3F, 0x1F, 0x1F], 0x10) := by
  decide +kernel

theorem test_encFast_V7d_empty :
    planesAfter (exec .encFast (encState 0 8 [] 8 0)) = some ([], [], 0x10) := by decide

theorem test_encRsvd4_V25_mode_before_size :
    statusAfter (exec (.encRsvd4 7#4) (encState 16 8 [] 8 8)) = some 0x09 := by decide

theorem test_encRsvd8_V29_error_before_refusal :
    statusAfter (exec (.encRsvd8 12#4) (encState 12 2 [] 12 2)) = some 0x09 := by decide

/-! ### RES (V46, V48) -/

theorem test_res_V46_exact_arithmetic :
    statusAfter (exec .res (resState 65535 0 65535 1 400 300)) = some 0x0B := by decide

theorem test_res_V48_transposed :
    windowAfter (exec .res (resState 10 13 20 10 300 400))
      = some (⟨8, 10, 23, 29, 16, 20⟩, 0x20) := by decide

/-- V48 under the alternative `swap_flip` of D16. -/
theorem test_swapFlip_V48 :
    windowAfter (resolveUnder .swapFlip (resState 10 13 20 10 300 400))
      = some (⟨8, 270, 23, 289, 16, 20⟩, 0x20) := by decide

/-! ### Steps: commands and host transactions -/

/-- V62: an illegal byte with both results valid keeps both. -/
theorem test_step_V62_illegal_keeps_valid :
    statusAfter (step { State.reset with
      status := ⟨none, false, true, true⟩, script := [.cmd 0x21] }) = some 0x3C := by decide

/-- V63: then `RES` succeeds and the latch stays. -/
theorem test_step_V63_latch_stays :
    statusAfter (step { resState 5 0 10 1 400 300 with
      status := ⟨some .illegalCommand, true, true, true⟩, script := [.cmd 0x20] }) = some 0x38 := by
  decide

/-- R22: `CMD` reads 0. -/
theorem test_read_cmd :
    (stateOf (transact (.rd 0) State.reset)).map (·.returned) = some [.byte 0] := by decide

/-- R12: `STATUS` reads as one byte. -/
theorem test_read_status :
    (stateOf (transact (.rd 1) { State.reset with status := ⟨some .illegalCommand, true, false, true⟩ })).map
      (·.returned) = some [.byte 0x2C] := by decide

/-- U6 and U7: a result register while `RES_VALID = 0`, and a plane byte at or above `N`, set the fault bit;
a plane byte below `N` does not. -/
theorem test_reads_of_no_value_fault :
    let s : State := { State.reset with
      status := ⟨none, false, true, false⟩, p0 := [(0, 0x33)], p1 := [(0, 0x33)] }
    faultBit (transact (.rd 12) s) = some true ∧ faultBit (transact (.rp .p1 1) s) = some true ∧
    faultBit (transact (.rp .p1 0) s) = some false := by decide

/-- R161: after reset `ENC.MONO` succeeds with empty planes, and `RES` is refused. -/
theorem test_first_command_after_reset :
    planesAfter (step (State.reset.withFetchWord 8 0x10)) = some ([], [], 0x10) ∧
    refusalOf (step (State.reset.withFetchWord 8 0x20)) = some .emptyPastedImage := by decide

/-! ### The environment: Program 3 through `partialDisplayFrame` -/

/-- A controller in Active over a block after reset, with a white frame of a size. -/
def whiteFrame (w h : Nat) : Controller where
  lifecycle := .active
  retained := Raster.uniform w h 255#8
  block := State.reset
  calls := []
  waitsLeft := none

/-- Plane 1, the window and `STATUS` of the block, and the result of a call. -/
def callAfter (o : Call (Controller × CallResult)) : Option (List Byte × WinRegs × Byte × CallResult) :=
  match o with
  | .next (c, r) => some (c.block.p1.map Prod.snd, c.block.win, c.block.status.byte, r)
  | _ => none

/-- R110: the default arguments. -/
theorem test_default_arguments (c : Controller) (r : Raster) (x y : Nat) :
    c.clear = c.clear 0xFF#8 ∧ c.displayFrame r = c.displayFrame r 0#4 ∧
    c.partialDisplayFrame r x y = c.partialDisplayFrame r x y 2#4 := ⟨rfl, rfl, rfl⟩

/-- Program 3: a black 10 x 3 image pasted at (5, 2) into a white frame. -/
theorem test_partialDisplay_program3 :
    callAfter ((whiteFrame 400 300).partialDisplayFrame (Raster.uniform 10 3 0#8) 5 2 (modeCode .partialRefresh))
      = some ([0xF8, 0x01, 0xF8, 0x01, 0xF8, 0x01], ⟨0, 2, 15, 4, 16, 3⟩, 0x30, .returned) := by
  decide +kernel

/-! ### Witnesses: concrete inputs that meet the hypotheses of each obligation that has some -/

/-- The raster of V2, Direct 8 x 1. -/
def direct : State := encState 8 1 [0x00, 0x4F, 0x50, 0xFF, 0x00, 0x4F, 0x50, 0xFF] 8 1

/-- The raster of V17, Rotated: 3 x 8 onto 8 x 3. -/
def rotated : State := encState 3 8 ((List.range 24).map fun i => BitVec.ofNat 8 (10 * i)) 8 3

/-- V23: sizes that match in neither sense. -/
def mismatched : State := encState 8 16 [] 16 9

/-- V35: the window that touches both far edges. -/
def farEdges : State := resState 384 299 16 1 400 300

/-- V51: the same corner of a transposed frame. -/
def farEdgesTransposed : State := resState 299 399 1 1 300 400

/-- V36 and V52: one past the edge, in either branch. -/
def pastX : State := resState 384 299 17 1 400 300
def pastY : State := resState 299 392 2 1 300 400

theorem witness_ResetLeavesZeroOperandsAndNoResult :
    faultBit (transact (.rd 12) State.reset) = some true ∧
    faultBit (transact (.rd 17) State.reset) = some true ∧
    faultBit (transact (.rp .p0 14999) State.reset) = some true := by decide

theorem witness_PlatformResetRestoresTheBlock :
    ({ direct with script := [.reset, .cmd 0x10] } : State).script = .reset :: [.cmd 0x10] := rfl

theorem witness_DecoderFollowsTheOpcodeMap :
    decode 0x10 = .instr .encMono ∧ decode 0x1F = .instr (.encRsvd8 15#4) ∧
    decode 0x0F = .rejected .illegalCommand ∧ decode 0x21 = .rejected .illegalCommand := by decide

theorem witness_DecodeOfEncodeIsTheCommand :
    Instr.encMono.wellFormed = true ∧ (Instr.encRsvd4 4#4).wellFormed = true ∧
    (Instr.encRsvd4 7#4).wellFormed = true ∧ (Instr.encRsvd8 8#4).wellFormed = true ∧
    (Instr.encRsvd8 15#4).wellFormed = true ∧ Instr.res.wellFormed = true := by decide

theorem witness_EncodeOfDecodeIsTheByte :
    decode 0x1F = .instr (.encRsvd8 15#4) ∧ decode 0x20 = .instr .res := by decide

theorem witness_StepRunsTheDecodedCommand :
    decode 0x11 = .instr .encGray4 ∧
    ({ direct with script := [.cmd 0x11] } : State).script = .cmd 0x11 :: [] ∧
    ({ direct with script := [.wr 0 0x0011] } : State).script
      = .wr 0 ((0x11#8).setWidth 16) :: [] := by decide

theorem witness_IllegalByteRaisesIllegalCommand :
    ({ direct with script := [.cmd 0x0F] } : State).script = .cmd 0x0F :: [] ∧ (0x0F#8).toNat < 0x10 ∧
    ({ direct with script := [.cmd 0x21] } : State).script = .cmd 0x21 :: [] ∧
    ({ direct with script := [.wr 0 0x0021] } : State).script = .wr 0 ((0x21#8).setWidth 16) :: [] ∧
    0x20 < (0x21#8).toNat := by decide

theorem witness_ReservedModesRaiseInvalidMode :
    (Instr.encRsvd4 4#4).wellFormed = true ∧ (Instr.encRsvd4 7#4).wellFormed = true ∧
    (Instr.encRsvd8 8#4).wellFormed = true ∧ (Instr.encRsvd8 15#4).wellFormed = true := by decide

theorem witness_MismatchedSizesRaiseSizeMismatch :
    encModeOf .encGray4 = some .fourGray ∧ ¬ mismatched.sizesMatch := by decide

theorem witness_ErrorsChangeOnlyStatus :
    ∃ t, exec .encFast mismatched = .next t ∧ t.status.err ≠ none := ⟨_, rfl, by decide⟩

theorem witness_LatchStaysUntilReset :
    ∃ s t : State, step s = .next t ∧ (∀ rest, s.script ≠ .reset :: rest) ∧ s.status.errLatch = true :=
  ⟨{ farEdges with status := ⟨none, true, false, false⟩, script := [.cmd 0x20] }, _, rfl, by simp, rfl⟩

theorem witness_QuantiserThresholdsAtEighty :
    Config.thresh ≤ (80#8).toNat ∧ (79#8).toNat < Config.thresh := by decide

theorem witness_OrientationIsDirectFirst :
    (8 = 8 ∧ 8 = 8) ∧ (¬(3 = 8 ∧ 8 = 3) ∧ 3 = 3 ∧ 8 = 8) ∧ (¬(8 = 16 ∧ 16 = 9) ∧ ¬(8 = 9 ∧ 16 = 16)) := by
  decide

theorem witness_EveryPixelGoesToItsPlace :
    encModeOf .encMono = some .monochrome ∧
    (direct.geometryAdmitted ∧ (direct.enc.srcW = direct.enc.tgtW ∧ direct.enc.srcH = direct.enc.tgtH) ∧
      7 < direct.enc.srcW.toNat ∧ 0 < direct.enc.srcH.toNat) ∧
    (rotated.geometryAdmitted ∧ ¬(rotated.enc.srcW = rotated.enc.tgtW ∧ rotated.enc.srcH = rotated.enc.tgtH) ∧
      (rotated.enc.srcW = rotated.enc.tgtH ∧ rotated.enc.srcH = rotated.enc.tgtW) ∧
      2 < rotated.enc.srcW.toNat ∧ 7 < rotated.enc.srcH.toNat) := by decide

theorem witness_DirectPlaneBitsFollowTheSample :
    direct.geometryAdmitted ∧ direct.enc.srcW = direct.enc.tgtW ∧ direct.enc.srcH = direct.enc.tgtH ∧
    Config.thresh ≤ (direct.sample 2).toNat ∧ ¬ Config.thresh ≤ (direct.sample 1).toNat := by decide

theorem witness_PlanesHoldExactlyTheirBytes :
    encModeOf .encPart = some .partialRefresh ∧ rotated.sizesMatch ∧ rotated.geometryAdmitted := by decide

theorem witness_EncodeEqualsTheClosedForm :
    encModeOf .encGray4 = some .fourGray ∧
    (direct.geometryAdmitted ∧ direct.orient = some .direct ∧ 0 < direct.planeBytes) ∧
    (rotated.geometryAdmitted ∧ rotated.orient = some .rotated ∧ 2 < rotated.planeBytes) := by decide

theorem witness_PackingIgnoresOldContentsAndOrder :
    (⟨3, 8, 8, 3, .rotated⟩ : Geometry).matched ∧ (⟨3, 8, 8, 3, .rotated⟩ : Geometry).w % 8 = 0 ∧
    (pixels 3 8).reverse.Perm (pixels 3 8) ∧ 2 < 8 * 3 / 8 :=
  ⟨by decide, by decide, List.reverse_perm _, by decide⟩

theorem witness_ThresholdedPlanesAreEqual : direct.sizesMatch ∧ direct.geometryAdmitted := by decide

theorem witness_EmptyTargetSucceedsWithEmptyPlanes :
    (encState 0 5 [] 0 5).sizesMatch ∧ (encState 0 5 [] 0 5).enc.tgtW.toNat % 8 = 0 ∧
    (encState 0 5 [] 0 5).enc.tgtW.toNat = 0 ∧
    (encState 0 8 [] 8 0).sizesMatch ∧ (encState 0 8 [] 8 0).enc.tgtW.toNat % 8 = 0 ∧
    (encState 0 8 [] 8 0).enc.tgtH.toNat = 0 := by decide

/-- The clauses at their boundaries: 400 x 300 is just admitted, 400 x 301 is not. -/
theorem witness_AdmissionFollowsTheGeometry :
    ((encState 400 300 [] 400 300).sizesMatch ∧ 400 % 8 = 0 ∧ 400 * 300 ≤ 120000) ∧
    ((encState 4 2 [] 4 2).sizesMatch ∧ (encState 4 2 [] 4 2).enc.tgtW.toNat % 8 ≠ 0) ∧
    ((encState 400 301 [] 400 301).sizesMatch ∧
      (encState 400 301 [] 400 301).enc.tgtW.toNat % 8 = 0 ∧
      120000 < (encState 400 301 [] 400 301).enc.tgtW.toNat * (encState 400 301 [] 400 301).enc.tgtH.toNat) ∧
    ¬ mismatched.sizesMatch ∧
    (4 ≤ (4#4).toNat ∧ (4#4).toNat ≤ 7) ∧ (4 ≤ (7#4).toNat ∧ (7#4).toNat ≤ 7) ∧ 8 ≤ (8#4).toNat := by decide

theorem witness_EncodeFrame :
    Instr.encMono ≠ .res ∧ (∃ t, exec .encMono direct = .next t ∧ t.status.err = none) ∧
    (∃ t, exec .encMono mismatched = .next t ∧ t.status.err ≠ none) :=
  ⟨by decide, ⟨_, rfl, rfl⟩, ⟨_, rfl, by decide⟩⟩

/-- Two states that differ in everything an ENC command does not read. -/
theorem witness_EncodeReadsOnlySizesAndRaster :
    let other : State := { direct with res := ⟨1, 2, 3, 4, 5, 6⟩, status := ⟨some .illegalCommand, true, false, true⟩, p0 := [(3, 1)] }
    direct.enc = other.enc ∧
    (∀ a, a < direct.enc.srcW.toNat * direct.enc.srcH.toNat → direct.sample a = other.sample a) ∧
    (∃ t, exec .encMono direct = .next t ∧ t.status.pValid = true) ∧
    refusalOf (exec .encMono (encState 4 2 [] 4 2)) = some .targetWidthUnaligned :=
  ⟨rfl, fun _ _ => rfl, ⟨_, rfl, rfl⟩, by decide⟩

theorem witness_ResolveNormalFrame :
    ¬ farEdges.frameIsTransposed ∧ farEdges.imageNotEmpty ∧
    8 * (farEdges.res.xStart.toNat / 8) + 8 * ((farEdges.res.picW.toNat + 7) / 8) - 1 = 399 ∧
    farEdges.res.yStart.toNat + farEdges.res.picH.toNat - 1 = 299 := by decide

theorem witness_ResolveTransposedFrame :
    farEdgesTransposed.frameIsTransposed ∧ farEdgesTransposed.imageNotEmpty ∧
    8 * (farEdgesTransposed.res.yStart.toNat / 8) + 8 * ((farEdgesTransposed.res.picH.toNat + 7) / 8) - 1 = 399 ∧
    farEdgesTransposed.res.xStart.toNat + farEdgesTransposed.res.picW.toNat - 1 = 299 := by decide

theorem witness_ResolveRejectsExactlyPastTheEdge :
    (pastX.imageNotEmpty ∧ 399 < pastX.windowXEnd) ∧ (pastY.imageNotEmpty ∧ 299 < pastY.windowYEnd) ∧
    (farEdges.imageNotEmpty ∧ farEdges.windowXEnd = 399 ∧ farEdges.windowYEnd = 299) := by decide

theorem witness_ResolvedWindowIsInsideAndAligned :
    ∃ t, exec .res farEdges = .next t ∧ t.status.err = none := ⟨_, rfl, rfl⟩

theorem witness_ResolvedWindowIsEncodable :
    ∃ t u : State, exec .res farEdges = .next t ∧ t.status.err = none ∧
      encModeOf .encPart = some .partialRefresh ∧ u.enc.tgtW = t.win.picWAl ∧
      u.enc.tgtH = t.win.picHAl ∧ u.sizesMatch :=
  ⟨_, encState 1 16 [] 16 1, rfl, rfl, rfl, by decide, by decide, by decide⟩

theorem witness_EmptyPastedImageIsRefused :
    (resState 0 0 0 1 400 300).res.picW.toNat = 0 ∧ (resState 0 0 1 0 400 300).res.picH.toNat = 0 := by
  decide

theorem witness_ResolveFrame :
    (∃ t, exec .res farEdges = .next t ∧ t.status.err = none) ∧
    (∃ t, exec .res pastX = .next t ∧ t.status.err ≠ none) :=
  ⟨⟨_, rfl, rfl⟩, ⟨_, rfl, by decide⟩⟩

theorem witness_ResolveReadsOnlyItsOperands :
    farEdges.res = ({ direct with res := farEdges.res } : State).res ∧
    (∃ t, exec .res farEdges = .next t ∧ t.status.resValid = true) ∧
    refusalOf (exec .res (resState 0 0 0 1 400 300)) = some .emptyPastedImage :=
  ⟨rfl, ⟨_, rfl, rfl⟩, by decide⟩

theorem witness_SwapFlipChangesTheRowsAlone :
    (∃ t, resolveUnder .swap farEdgesTransposed = .next t ∧ t.status.err = none) ∧
    farEdgesTransposed.frameIsTransposed ∧
    (∃ t, resolveUnder .swap farEdges = .next t ∧ t.status.err = none) ∧ ¬ farEdges.frameIsTransposed ∧
    resolveUnder .swap pastY = .next (pastY.raise .regionOutOfBounds) ∧
    resolveUnder .swapFlip pastY = .next (pastY.raise .regionOutOfBounds) ∧
    resolveUnder .swap State.reset = .refused .emptyPastedImage ∧
    resolveUnder .swapFlip State.reset = .refused .emptyPastedImage :=
  ⟨⟨_, rfl, rfl⟩, by decide, ⟨_, rfl, rfl⟩, by decide, rfl, rfl, rfl, rfl⟩

theorem witness_RepeatingACommandChangesNothing :
    (∃ t, exec .encGray4 rotated = .next t) ∧ (∃ t, exec .res pastY = .next t) :=
  ⟨⟨_, rfl⟩, ⟨_, rfl⟩⟩

theorem witness_OperandWriteReadsBack : 2 ≤ 2 ∧ 2 ≤ 11 ∧ 11 ≤ 11 ∧ Reg.srcW.number = 2 ∧ Reg.rfH.number = 11 := by
  decide

theorem witness_ReadOnlyWritesAreIgnored :
    (12 ≤ 12 ∧ 12 ≤ 17) ∧ (12 ≤ 17 ∧ 17 ≤ 17) ∧ 0 < 15000 ∧ 14999 < 15000 := by decide

/-- A state in which everything can be read. -/
def readable : State :=
  { State.reset with
    status := ⟨none, false, true, true⟩, win := ⟨0, 0, 15, 0, 16, 1⟩, p0 := [(0, 0x33)], p1 := [(0, 0x77)] }

theorem witness_ReadsReturnWhatStands :
    readable.status.resValid = true ∧ readable.status.pValid = true ∧
    (readable.plane .p1).read 0 = some 0x77 := by decide

theorem witness_ReadingNoValueFaults :
    direct.status.resValid = false ∧ direct.status.pValid = false ∧ (readable.plane .p0).read 1 = none := by
  decide

theorem witness_FaultBitRecordsReadsOfNoValue :
    (∃ t, step State.reset = .next t) ∧ (∃ t, step { direct with script := [.rd 12] } = .next t) ∧
    ∃ t, step { readable with script := [.rp .p0 1, .reset] } = .next t := ⟨⟨_, rfl⟩, ⟨_, rfl⟩, _, rfl⟩

theorem witness_SrcWriteReadsBack : 0 < 120000 ∧ 119999 < 120000 := by decide

theorem witness_NonexistentAccessIsRefused :
    refusalOf (transact (.wr 18 0) State.reset) = some .noSuchRegister ∧
    refusalOf (transact (.ws 120000 0) State.reset) = some .noSuchIndex ∧
    refusalOf (transact (.rp .p1 15000) State.reset) = some .noSuchIndex := by decide

theorem witness_StepsFollowTheHostsSequence :
    State.reset.script = [] ∧
    (∃ t, ({ direct with script := [.rs 3, .cmd 0x10] } : State).script = .rs 3 :: [.cmd 0x10] ∧
      step { direct with script := [.rs 3, .cmd 0x10] } = .next t) := ⟨rfl, _, rfl, rfl⟩

theorem witness_EveryStepKeepsTheRules :
    ({ readable with script := [.cmd 0x10] } : State).Inv ∧
    ∃ t, step { readable with script := [.cmd 0x10] } = .next t := ⟨by decide, _, rfl⟩

/-- The duty kept and the duty broken, for each transaction that has one; all over runs without a fault. -/
theorem witness_StepsGoOnExactlyUnderTheHostsDuty :
    (transactionDuty (.cmd 0x10) direct ∧ ¬ transactionDuty (.cmd 0x10) (encState 4 2 [] 4 2)) ∧
    (transactionDuty (.cmd 0x20) farEdges ∧ ¬ transactionDuty (.cmd 0x20) direct) ∧
    (transactionDuty (.cmd 0x21) direct ∧ transactionDuty (.wr 0 0x0021) direct) ∧
    (transactionDuty (.wr 17 0) direct ∧ ¬ transactionDuty (.wr 18 0) direct ∧
      ¬ transactionDuty (.wr 0 0x0100) direct) ∧
    (transactionDuty (.rd 12) readable ∧ ¬ transactionDuty (.rd 12) direct) ∧
    (transactionDuty (.ws 119999 0) direct ∧ ¬ transactionDuty (.rs 120000) direct) ∧
    (transactionDuty (.rp .p0 0) readable ∧ ¬ transactionDuty (.rp .p0 1) readable) ∧
    (transactionDuty (.wp .p0 14999 0) direct ∧ ¬ transactionDuty (.wp .p0 15000 0) direct) ∧
    transactionDuty .reset direct := by
  have accepted : commandDuty .encMono direct := by decide
  have refused : ¬ commandDuty .encMono (encState 4 2 [] 4 2) := by decide
  have resolved : commandDuty .res farEdges := by decide
  have empty : ¬ commandDuty .res direct := by decide
  have isByte : ¬ (0x0100#16).toNat < 256 := by decide
  refine ⟨⟨⟨accepted, trivial⟩, fun h => refused h.1⟩, ⟨⟨resolved, trivial⟩, fun h => empty h.1⟩,
    ⟨⟨trivial, trivial⟩, ⟨by decide, fun _ => ⟨by decide, trivial⟩⟩, trivial⟩,
    ⟨⟨⟨by decide, fun h => absurd h (by decide)⟩, trivial⟩, fun h => absurd h.1.1 (by decide),
      fun h => isByte (h.1.2 rfl).1⟩,
    ⟨?_, ?_⟩, ⟨?_, ?_⟩, ⟨?_, ?_⟩, ⟨?_, ?_⟩, trivial, trivial⟩ <;>
    unfold transactionDuty transactionAdmitted readsValue <;> decide

theorem witness_FailedInitWritesNoRegister :
    ({ whiteFrame 400 300 with lifecycle := .sleeping } : Controller).lifecycle ≠ .active ∧ (-1 : Int) ≠ 0 := by
  decide

/-- Whether a call ended in an error of the block. -/
def raisedBy (o : Call (Controller × CallResult)) (e : ErrorKind) : Bool :=
  match o with
  | .next (_, .raised e') => e' == e
  | _ => false

theorem call_of_raisedBy {o : Call (Controller × CallResult)} {e : ErrorKind} (h : raisedBy o e = true) :
    ∃ c', o = .next (c', .raised e) := by
  unfold raisedBy at h
  split at h
  · next c' e' => exact ⟨c', by rw [eq_of_beq h]⟩
  · cases h

/-- A raster of the wrong size, and an image past the panel's edge. -/
theorem witness_AbortedCallSendsNothing :
    (∃ c', (whiteFrame 400 300).displayFrame (Raster.uniform 8 1 0#8) (modeCode .monochrome)
      = .next (c', .raised .sizeMismatch)) ∧
    (∃ c', (whiteFrame 400 300).partialDisplayFrame (Raster.uniform 17 1 0#8) 384 299 (modeCode .fast)
      = .next (c', .raised .regionOutOfBounds)) :=
  ⟨call_of_raisedBy (by decide +kernel), call_of_raisedBy (by decide +kernel)⟩

/-- The encoder call on a full white frame. -/
theorem full_frame_encodes (b : State) (mode : Mode) :
    ∃ p0 p1 b', encodeOnBlock b (Raster.uniform 400 300 255#8) Config.panelW Config.panelH (modeCode mode)
      = .next (.planes p0 p1 b') := by
  obtain ⟨p0, p1, b', h, -⟩ := encodeOnBlock_completes b (Raster.uniform_wf 400 300 255#8)
    (modeOf_modeCode mode) (w := Config.panelW) (h := Config.panelH) (o := .direct)
    (by decide) (by decide) (by decide) (by decide) (by decide) (by decide) (by decide)
  exact ⟨p0, p1, b', h⟩

/-- Two encoder calls that answer planes make the Partial call show them. -/
theorem displayFrame_of_encodes {c : Controller} {raster : Raster} {n0 n1 o0 o1 : List Byte} {b b' : State}
    (active : c.lifecycle = .active)
    (h1 : encodeOnBlock c.block raster Config.panelW Config.panelH (modeCode .partialRefresh)
      = .next (.planes n0 n1 b))
    (h2 : encodeOnBlock b c.retained Config.panelW Config.panelH (modeCode .partialRefresh)
      = .next (.planes o0 o1 b')) :
    c.displayFrame raster (modeCode .partialRefresh)
      = c.showFrame b' (modeCode .partialRefresh) raster o0 n1 := by
  unfold Controller.displayFrame
  rw [Controller.whenActive_eq active, h1]
  simp only [Call.andThen_next, if_true, h2]

/-- A white full frame is displayed in Partial mode over a white frame. -/
theorem witness_PartialDisplayStreamsOldAndNew :
    ∃ c', (whiteFrame 400 300).displayFrame (Raster.uniform 400 300 255#8) (modeCode .partialRefresh)
      = .next (c', .returned) := by
  obtain ⟨n0, n1, b, h1⟩ := full_frame_encodes State.reset .partialRefresh
  obtain ⟨o0, o1, b', h2⟩ := full_frame_encodes b .partialRefresh
  exact ⟨_, displayFrame_of_encodes (c := whiteFrame 400 300) rfl h1 h2⟩

/-- Program 3's call returns. -/
theorem witness_PartialUpdateStreamsOldAndNewCrops :
    ∃ c', (whiteFrame 400 300).partialDisplayFrame (Raster.uniform 10 3 0#8) 5 2 (modeCode .partialRefresh)
      = .next (c', .returned) := by
  have h := test_partialDisplay_program3
  unfold callAfter at h
  split at h
  · next c r heq => exact ⟨c, by rw [heq]; simp at h; rw [h.2.2.2]⟩
  · cases h

theorem witness_RetainedFrameFollowsTheCall :
    (∃ c', (whiteFrame 400 300).displayFrame (Raster.uniform 400 300 255#8) (modeCode .partialRefresh)
      = .next (c', .returned)) ∧
    (∃ c', (whiteFrame 400 300).partialDisplayFrame (Raster.uniform 10 3 0#8) 5 2 (modeCode .partialRefresh)
      = .next (c', .returned)) ∧
    (∃ c', (whiteFrame 400 300).clear 0xFF#8 = .next (c', .returned)) :=
  ⟨witness_PartialDisplayStreamsOldAndNew, witness_PartialUpdateStreamsOldAndNewCrops, ⟨_, rfl⟩⟩

theorem witness_LutLoadingFollowsTheMode :
    (1#4 = modeCode .fourGray) ∧ 4 ≤ (4#4).toNat ∧ 4 ≤ (15#4).toNat := by decide

/-- The codes 4 and 15, a raster that matches no target, and an image ending in the panel's last column
and row, over a frame of either orientation. -/
theorem witness_UnrecognisedModeIsInvalidMode :
    (whiteFrame 400 300).lifecycle = .active ∧ (Raster.uniform 16 1 0#8).wf ∧ (Raster.uniform 1 1 0#8).wf ∧
    4 ≤ (4#4).toNat ∧ 4 ≤ (15#4).toNat ∧ 16 < 65536 ∧
    (whiteFrame 400 300).retained.width = 400 ∧ roundDown8 384 + roundUp8 16 - 1 = 399 ∧ 299 + 1 - 1 = 299 ∧
    (whiteFrame 300 400).retained.width = 300 ∧ roundDown8 399 + roundUp8 1 - 1 = 399 ∧ 299 + 1 - 1 = 299 :=
  ⟨rfl, Raster.uniform_wf _ _ _, Raster.uniform_wf _ _ _, by decide, by decide, by decide, rfl, by decide,
    by decide, rfl, by decide, by decide⟩

/-- A panel that never reports ready, from the first wait on. -/
def deadPanel : Controller := { whiteFrame 400 300 with waitsLeft := some 0 }

theorem witness_EndlessWaitIsStuck :
    deadPanel.lifecycle = .active ∧ deadPanel.waitsLeft = some 0 ∧
    ∃ c', deadPanel.clear 0xFF#8 = .fault (.waitsForever c') := ⟨rfl, rfl, _, rfl⟩

theorem witness_CallsFollowTheLifecycle :
    ((whiteFrame 400 300).lifecycle = .active ∧ (whiteFrame 400 300).waitsLeft = none) ∧
    ((Controller.create direct none).lifecycle ≠ .active ∧ (Controller.create direct none).waitsLeft = none) ∧
    ∃ r, (whiteFrame 400 300).displayFrame (Raster.uniform 8 1 0#8) (modeCode .monochrome) = .next r :=
  ⟨⟨rfl, rfl⟩, ⟨by simp [Controller.create], rfl⟩, _, witness_AbortedCallSendsNothing.1.choose_spec⟩

theorem whiteFrame_frameOk : (whiteFrame 400 300).frameOk ∧ (whiteFrame 300 400).frameOk :=
  ⟨⟨Raster.uniform_wf _ _ _, .inl ⟨rfl, rfl⟩⟩, ⟨Raster.uniform_wf _ _ _, .inr ⟨rfl, rfl⟩⟩⟩

theorem witness_RetainedFrameKeepsOneOfTwoSizes :
    (whiteFrame 400 300).frameOk ∧ ∃ r, (whiteFrame 400 300).clear 0#8 = .next r :=
  ⟨whiteFrame_frameOk.1, ⟨_, rfl⟩⟩

theorem witness_DisplayFrameCompletes :
    (whiteFrame 300 400).lifecycle = .active ∧ (whiteFrame 300 400).frameOk ∧
    (Raster.uniform 300 400 7#8).wf ∧ (Raster.uniform 300 400 7#8).width = 300 ∧
    (Raster.uniform 300 400 7#8).height = 400 ∧ (3#4).toNat ≤ 3 ∧
    (whiteFrame 300 400).waitsLeft ≠ some 0 ∧ (deadPanel.lifecycle = .active ∧ deadPanel.waitsLeft = some 0) :=
  ⟨rfl, whiteFrame_frameOk.2, Raster.uniform_wf _ _ _, rfl, rfl, by decide, by decide, rfl, rfl⟩

/-- Both frames, the image ending in the panel's last column and row. -/
theorem witness_PartialDisplayCompletes :
    ((whiteFrame 400 300).frameOk ∧ (Raster.uniform 16 1 0#8).wf ∧
      roundDown8 384 + roundUp8 16 - 1 = 399 ∧ 299 + 1 - 1 = 299) ∧
    ((whiteFrame 300 400).frameOk ∧ (Raster.uniform 1 1 0#8).wf ∧
      roundDown8 399 + roundUp8 1 - 1 = 399 ∧ 299 + 1 - 1 = 299) :=
  ⟨⟨whiteFrame_frameOk.1, Raster.uniform_wf _ _ _, by decide, by decide⟩,
    ⟨whiteFrame_frameOk.2, Raster.uniform_wf _ _ _, by decide, by decide⟩⟩

end Sys2Proof.Tests
end

section
/-! PROOFS. The registers by their numbers, and one rule for each transaction on a register or a plane
(spec/10_state.md). -/

namespace Sys2Proof.Machine

/-! ### The registers by their numbers (R10, R22) -/

@[simp] theorem Reg.ofNumber_number (r : Reg) : Reg.ofNumber r.number = some r := by
  cases r <;> rfl

/-- Every number up to 17 is a register's. -/
theorem Reg.exists_number {n : Nat} (h : n ≤ 17) : ∃ r : Reg, r.number = n := by
  have all : ∀ k : Fin 18, ∃ r ∈ allRegs, r.number = k := by decide
  obtain ⟨r, -, hr⟩ := all ⟨n, by omega⟩
  exact ⟨r, hr⟩

theorem Reg.ofNumber_eq_none {n : Nat} (h : 18 ≤ n) : Reg.ofNumber n = none :=
  List.getElem?_eq_none h

theorem Reg.isResult_iff (r : Reg) : r.isResult = true ↔ 12 ≤ r.number := by cases r <;> decide

/-! ### Reading and writing registers -/

section Registers
variable (s : State) (v : Word)

/-- Only the operand registers can change (R13, R14). -/
theorem State.writeReg_eq_operands (r : Reg) :
    s.writeReg r v = { s with enc := (s.writeReg r v).enc, res := (s.writeReg r v).res } := by
  cases r <;> rfl

/-- `CMD`, `STATUS` and the result registers store nothing of what the host writes (R11, R12, R15). -/
theorem State.writeReg_of_not_operand {r : Reg} (h : r.number ≤ 1 ∨ 12 ≤ r.number) :
    s.writeReg r v = s := by
  cases r <;> simp [Reg.number, State.writeReg] at h ⊢

theorem State.readReg_writeReg_same {r : Reg} (h : 2 ≤ r.number) (h' : r.number ≤ 11) :
    (s.writeReg r v).readReg r = .word v := by
  cases r <;> simp [Reg.number, State.readReg, State.writeReg] at h h' ⊢

theorem State.readReg_writeReg_other {r q : Reg} (h : q ≠ r) :
    (s.writeReg r v).readReg q = s.readReg q := by
  cases r <;> cases q <;> simp [State.readReg, State.writeReg] at h ⊢

/-- A register holds what stands in it, a result register while `RES_VALID = 1` (R15). -/
theorem State.regValue_eq_readReg {r : Reg} (h : r.isResult = true → s.status.resValid = true) :
    s.regValue r = some (s.readReg r) := by
  cases hr : r.isResult <;> simp_all [State.regValue]

theorem State.regValue_eq_none {r : Reg} (hr : r.isResult = true) (h : s.status.resValid = false) :
    s.regValue r = none := by simp [State.regValue, hr, h]

end Registers

/-! ### Planes (R19) -/

theorem State.planeValue_eq_read {s : State} (h : s.status.pValid = true) (p : Plane) (a : Nat) :
    s.planeValue p a = (s.plane p).read a := if_pos h

theorem State.planeValue_eq_none {s : State} {p : Plane} {a : Nat}
    (h : s.status.pValid = false ∨ (s.plane p).read a = none) : s.planeValue p a = none := by
  rcases h with h | h <;> simp [State.planeValue, h]

/-! ### The byte of `STATUS` (R12) -/

theorem Status.byte_extract_err (st : Status) : st.byte.extractLsb' 0 3 = errField st.err :=
  BitVec.extractLsb'_append_eq_right

/-- The bits above `ERR`: the latch, the two valid bits, and zeros. -/
theorem Status.byte_getLsbD (st : Status) (i : Nat) :
    st.byte.getLsbD (i + 3) = [st.errLatch, st.pValid, st.resValid].getD i false := by
  simp only [Status.byte, BitVec.getLsbD_append]
  match i with
  | 0 => simp
  | 1 => simp
  | 2 => simp
  | i + 3 => simp

/-! ### One transaction on a register -/

section RegisterTransactions
variable (s : State) (r : Reg)

/-- A host write to a register other than `CMD` (R22). -/
theorem transact_wr {r : Reg} (h : r ≠ .cmd) (v : Word) :
    transact (.wr r.number v) s = .next (s.writeReg r v) := by
  cases r with
  | cmd => exact absurd rfl h
  | _ => rfl

theorem transact_rd : transact (.rd r.number) s =
    .next (s.giveFound (s.regValue r) (.word (Config.unspecifiedWord s.returned.length))) := by
  simp [transact, hostRead]

/-- A host read of a register that holds a value. -/
theorem transact_rd_value {r : Reg} (h : r.isResult = true → s.status.resValid = true) :
    transact (.rd r.number) s = .next (s.give (s.readReg r)) := by
  rw [transact_rd, s.regValue_eq_readReg h, State.giveFound_some]

/-- A host read of a result register while `RES_VALID = 0` (R15, U6). -/
theorem transact_rd_noValue {r : Reg} (hr : r.isResult = true) (h : s.status.resValid = false) :
    transact (.rd r.number) s = .next
      { s.give (.word (Config.unspecifiedWord s.returned.length)) with faulted := true } := by
  rw [transact_rd, s.regValue_eq_none hr h, State.giveFound_none]

end RegisterTransactions

/-- A command byte written to register 0 runs as the same byte given as `CMD` (R11, R58). -/
theorem transact_wr_cmd (c : Byte) (s : State) :
    transact (.wr 0 (c.setWidth 16)) s = command c s := by
  have hv : (c.setWidth 16).toNat < 256 := by simp; omega
  have hc : (c.setWidth 16).setWidth 8 = c := by simp
  show (if (c.setWidth 16).toNat < 256 then command ((c.setWidth 16).setWidth 8) s
    else .refused .commandNotAByte) = _
  rw [if_pos hv, hc]

theorem command_of_decode {c : Byte} {i : Instr} (h : decode c = .instr i) (s : State) :
    command c s = exec i s := by unfold command; rw [h]

/-! ### One transaction on a plane byte -/

theorem transact_rp {a : Nat} (ha : a < 15000) (p : Plane) (s : State) :
    transact (.rp p a) s = .next (s.giveFound ((s.planeValue p a).map .byte) (.byte (s.planeByte p a))) :=
  if_pos ha

/-- A host read of a plane byte that holds a value. -/
theorem transact_rp_value {s : State} {p : Plane} {a : Nat} {b : Byte} (ha : a < 15000)
    (h : s.planeValue p a = some b) : transact (.rp p a) s = .next (s.give (.byte b)) := by
  simp [transact_rp ha, h]

/-- A host read of a plane byte that holds none (R19, U5, U7). -/
theorem transact_rp_noValue {s : State} {p : Plane} {a : Nat} (ha : a < 15000)
    (h : s.planeValue p a = none) : transact (.rp p a) s = .next
      { s.give (.byte (Config.unspecifiedByte s.returned.length)) with faulted := true } := by
  simp [transact_rp ha, State.planeByte, h]

end Sys2Proof.Machine
end

section
/-! PROOFS. Every step keeps the invariant: one lemma for each update of the state, then the commands, the
transactions and the step. -/

namespace Sys2Proof.Machine

/-! ### The window of a successful `RES` (spec/42_resolve.md R99) -/

theorem pastEdge_eq_false (w : Window) : pastEdge w = false ↔ w.xEnd ≤ 399 ∧ w.yEnd ≤ 299 := by
  rw [pastEdge, Bool.or_eq_false_iff, decide_eq_false_iff_not, decide_eq_false_iff_not, Nat.not_lt,
    Nat.not_lt, Config.panelW_eq, Config.panelH_eq]

/-- Enough for R99: a start column and a width divisible by 8, and an end inside the panel. -/
theorem windowFrom_guaranteed {x y w h : Nat} (hx : x % 8 = 0) (hw : w % 8 = 0) (hw1 : 1 ≤ w)
    (hh : 1 ≤ h) (he : pastEdge (windowFrom x y w h) = false) :
    (windowFrom x y w h).toRegs.guaranteed := by
  obtain ⟨hxe, hye⟩ : x + w - 1 ≤ 399 ∧ y + h - 1 ≤ 299 := (pastEdge_eq_false _).1 he
  have hpix : w * h ≤ 400 * 300 := Nat.mul_le_mul (by omega) (by omega)
  have toNat : ∀ n : Nat, n ≤ 400 → (BitVec.ofNat 16 n).toNat = n := fun n hn => by simp; omega
  unfold WinRegs.guaranteed Window.toRegs windowFrom
  simp only
  rw [toNat x (by omega), toNat y (by omega), toNat (x + w - 1) (by omega),
    toNat (y + h - 1) (by omega), toNat w (by omega), toNat h (by omega), Config.maxPix_eq]
  omega

theorem ceil8_pos {v : Nat} (h : 1 ≤ v) : 1 ≤ ceil8 v := by rw [ceil8_eq]; omega

/-- The aligned window of a non-empty image keeps R99 when it does not pass the panel's edge. -/
theorem alignedWindow_guaranteed {r : ResRegs} (hw : 1 ≤ r.picW.toNat) (hh : 1 ≤ r.picH.toNat)
    (he : pastEdge (alignedWindow r) = false) : (alignedWindow r).toRegs.guaranteed := by
  have floor_mod : ∀ v, floor8 v % 8 = 0 := fun v => by rw [floor8_eq]; omega
  unfold alignedWindow at he ⊢
  split_ifs at he ⊢ with ht
  · exact windowFrom_guaranteed (floor_mod _) (floor_mod _) (ceil8_pos hh) hw he
  · exact windowFrom_guaranteed (floor_mod _) (floor_mod _) (ceil8_pos hw) hh he

/-! ### Each update keeps the invariant -/

theorem Status.resValid_of_raise {st : Status} {e : ErrorKind} (h : (st.raise e).resValid = true) :
    st.resValid = true := by
  cases e with
  | regionOutOfBounds => cases h
  | _ => exact h

theorem State.reset_Inv : State.reset.Inv := by decide

section Updates
variable {s : State} (h : s.Inv)
include h

/-- The invariant speaks of the memories, `STATUS` and the result registers alone. -/
theorem State.Inv.of_eq {t : State} (hsrc : t.src = s.src) (hp0 : t.p0 = s.p0) (hp1 : t.p1 = s.p1)
    (hstatus : t.status = s.status) (hwin : t.win = s.win) : t.Inv := by
  unfold State.Inv
  rw [hsrc, hp0, hp1, hstatus, hwin]
  exact h

theorem State.Inv.writeReg (r : Reg) (v : Word) : (s.writeReg r v).Inv :=
  h.of_eq (by simp) (by simp) (by simp) (by simp) (by simp)

theorem State.Inv.giveFound (found : Option Reading) (u : Reading) : (s.giveFound found u).Inv :=
  h.of_eq rfl rfl rfl rfl rfl

theorem State.Inv.script (rest : List Transaction) : { s with script := rest }.Inv :=
  h.of_eq rfl rfl rfl rfl rfl

theorem State.Inv.writeSrc {a : Nat} (ha : a < Config.maxPix) (v : Byte) :
    { s with src := s.src.write a v }.Inv := by
  obtain ⟨⟨hwf, hbelow⟩, hrest⟩ := h
  exact ⟨⟨Memory.write_wf hwf a v, Memory.write_below hbelow ha v⟩, hrest⟩

/-- An error sets the latch, and sets no valid bit. -/
theorem State.Inv.raise (e : ErrorKind) : (s.raise e).Inv := by
  obtain ⟨hsrc, hplanes, -, hwin⟩ := h
  exact ⟨hsrc, hplanes, fun _ => Status.raise_errLatch e s.status,
    fun hv => hwin (Status.resValid_of_raise hv)⟩

/-- Both planes of an admitted geometry list their `N` bytes. -/
theorem State.Inv.encodedIn (ha : s.geometryAdmitted) (mode : Mode) {o : Orient}
    (ho : s.orient = some o) : (s.encodedIn mode o).Inv := by
  obtain ⟨hsrc, -, -, hwin⟩ := h
  obtain ⟨hw, hpix⟩ := ha
  have hlists : ∀ p, (packPlane (s.geometry o) mode s.sample p).lists s.planeBytes :=
    packPlane_lists (State.geometry_matched ho) hw mode s.sample
  have hlen : (s.encodedIn mode o).p0.length = s.planeBytes := Memory.length_of_lists (hlists .p0)
  have hcap : s.planeBytes ≤ Config.maxPlane := Nat.div_le_div_right hpix
  refine ⟨hsrc, ?_, fun herr => absurd rfl herr, hwin⟩
  rw [hlen]
  exact ⟨hlists .p0, hlists .p1, hcap⟩

theorem State.Inv.completeResolve {w : WinRegs} (hw : w.guaranteed) : (s.completeResolve w).Inv := by
  obtain ⟨hsrc, hplanes, -, -⟩ := h
  exact ⟨hsrc, hplanes, fun herr => absurd rfl herr, fun _ => hw⟩

/-! ### Commands, transactions, steps -/

theorem State.Inv.exec {i : Instr} {t : State} (ht : exec i s = .next t) : t.Inv := by
  rcases exec_cases ht with ⟨e, -, -, -, rfl⟩ | ⟨-, ha, mode, o, ho, rfl⟩ | ⟨-, ⟨hw, hh⟩, he, rfl⟩
  · exact h.raise e
  · exact h.encodedIn ha mode ho
  · exact h.completeResolve (alignedWindow_guaranteed hw hh he)

theorem State.Inv.command {c : Byte} {t : State} (ht : command c s = .next t) : t.Inv := by
  rcases command_cases c s with ⟨i, -, hi⟩ | ⟨-, hi⟩ <;> rw [hi] at ht
  · exact h.exec ht
  · cases ht; exact h.raise _

theorem State.Inv.transact {a : Transaction} {t : State} (ht : transact a s = .next t) : t.Inv := by
  rcases transact_cases ht with ⟨-, c, hc⟩ | ⟨-, r, v, rfl⟩ | ⟨found, u, -, rfl⟩ |
    ⟨-, k, v, hk, rfl⟩ | ⟨-, rfl⟩ | ⟨-, rfl⟩
  · exact h.command hc
  · exact h.writeReg r v
  · exact h.giveFound found u
  · exact h.writeSrc hk v
  · exact h
  · exact State.reset_Inv.of_eq rfl rfl rfl rfl rfl

theorem State.Inv.step {t : State} (ht : step s = .next t) : t.Inv := by
  cases hs : s.script with
  | nil =>
    rw [step_nil hs] at ht
    cases ht
    exact h
  | cons a rest =>
    rw [step_cons hs] at ht
    exact (h.script rest).transact ht

end Updates

end Sys2Proof.Machine
end

section
/-! PROOFS. The obligations of spec/10_state.md. -/

namespace Sys2Proof.Machine

/-- Settles O46: each update that a transaction or a command can make keeps the invariant. -/
theorem everyStepKeepsTheRules : Obligations.EveryStepKeepsTheRules :=
  fun _ _ hs ht => hs.step ht

/-- Settles O45: after reset the memories are empty, and no error and no result is valid. -/
theorem resetKeepsTheRules : Obligations.ResetKeepsTheRules := State.reset_Inv

/-- Settles O37, by the rules of a register's write and read. -/
theorem operandWriteReadsBack : Obligations.OperandWriteReadsBack := by
  intro s n v h2 h11
  obtain ⟨r, rfl⟩ := Reg.exists_number (show n ≤ 17 by omega)
  have hcmd : r ≠ .cmd := by rintro rfl; exact absurd h2 (by decide)
  have hres : ¬ r.isResult = true := by rw [Reg.isResult_iff]; omega
  refine ⟨s.writeReg r v, transact_wr s hcmd v, ?_, fun q hq => ?_, s.writeReg_eq_operands v r⟩
  · rw [transact_rd_value _ fun hr => absurd hr hres, s.readReg_writeReg_same v h2 h11]
  · exact s.readReg_writeReg_other v fun h => hq (congrArg Reg.number h)

/-- Settles O1: the result registers and the planes hold no value, so a read of them faults. -/
theorem resetLeavesZeroOperandsAndNoResult : Obligations.ResetLeavesZeroOperandsAndNoResult := by
  refine ⟨by decide, transact_rd_value _ (r := .cmd) nofun, rfl, rfl, fun n h12 h17 => ?_,
    Memory.read_nil, fun p a ha => ?_⟩
  · obtain ⟨r, rfl⟩ := Reg.exists_number h17
    exact ⟨_, transact_rd_noValue _ (r.isResult_iff.2 h12) rfl, rfl⟩
  · exact ⟨_, transact_rp_noValue ha (State.planeValue_eq_none (.inl rfl)), rfl⟩

/-- Settles O7: both forms of the write come to `command`. -/
theorem stepRunsTheDecodedCommand : Obligations.StepRunsTheDecodedCommand := by
  rintro s c i rest hc (hs | hs) <;> rw [step_cons hs]
  · exact command_of_decode hc _
  · rw [transact_wr_cmd, command_of_decode hc]

/-- Settles O38: the registers in question are not `CMD`, and a write to them stores nothing. -/
theorem readOnlyWritesAreIgnored : Obligations.ReadOnlyWritesAreIgnored := by
  refine fun s => ⟨fun n v hn => ?_, fun p a v ha => if_pos ha⟩
  obtain ⟨r, rfl⟩ := Reg.exists_number (show n ≤ 17 by omega)
  have hcmd : r ≠ .cmd := by rintro rfl; exact absurd hn (by decide)
  rw [transact_wr s hcmd, s.writeReg_of_not_operand v (by omega)]

/-- Settles O39: each of these registers and bytes holds a value, which the read hands on. -/
theorem readsReturnWhatStands : Obligations.ReadsReturnWhatStands := by
  refine fun s => ⟨transact_rd_value s (r := .cmd) nofun, ⟨s.status.byte,
    transact_rd_value s (r := .status) nofun, s.status.byte_extract_err, s.status.byte_getLsbD 0,
    s.status.byte_getLsbD 1, s.status.byte_getLsbD 2, s.status.byte_getLsbD 3,
    s.status.byte_getLsbD 4⟩, fun hv => ?_, fun hv p a b ha hb => ?_⟩
  · have rd : ∀ r : Reg, transact (.rd r.number) s = .next (s.give (s.readReg r)) :=
      fun r => transact_rd_value s fun _ => hv
    exact ⟨rd .winX, rd .winY, rd .winXEnd, rd .winYEnd, rd .picWAl, rd .picHAl⟩
  · exact transact_rp_value ha ((State.planeValue_eq_read hv p a).trans hb)

/-- Settles O40: there is no value to find, in the register or in the plane. -/
theorem readingNoValueFaults : Obligations.ReadingNoValueFaults := by
  refine fun s => ⟨fun hv n h12 h17 => ?_, fun p a ha h => ?_⟩
  · obtain ⟨r, rfl⟩ := Reg.exists_number h17
    exact transact_rd_noValue s (r.isResult_iff.2 h12) hv
  · exact transact_rp_noValue ha (State.planeValue_eq_none h)

/-- Settles O43: no register has the number, and no index test passes. -/
theorem nonexistentAccessIsRefused : Obligations.NonexistentAccessIsRefused := by
  refine fun s => ⟨fun n hn => ?_, fun a ha => ?_, fun p a ha => ?_⟩
  · simp [transact, hostRead, hostWrite, Reg.ofNumber_eq_none hn]
  · have hpix : ¬ a < Config.maxPix := Nat.not_lt.2 ha
    exact ⟨if_neg hpix, fun v => if_neg hpix⟩
  · have hplane : ¬ a < Config.maxPlane := Nat.not_lt.2 ha
    exact ⟨if_neg hplane, fun v => if_neg hplane⟩

end Sys2Proof.Machine
end

section
/-! PROOFS. One transaction on a byte of `SRC`, and that no transaction touches the host's sequence
(spec/20_memory.md). -/

namespace Sys2Proof.Machine

/-! ### A byte of `SRC` (R31) -/

section Src
variable (s : State) (a : Nat) (v : Byte)

@[simp] theorem State.sample_writeSrc_same : { s with src := s.src.write a v }.sample a = v := by
  simp [State.sample]

theorem State.sample_writeSrc_other {a b : Nat} (h : b ≠ a) :
    { s with src := s.src.write a v }.sample b = s.sample b := by
  simp [State.sample, Memory.read_write_other _ v h]

theorem transact_ws {a : Nat} (ha : a < 120000) :
    transact (.ws a v) s = .next { s with src := s.src.write a v } := if_pos ha

theorem transact_rs {a : Nat} (ha : a < 120000) :
    transact (.rs a) s = .next (s.give (.byte (s.sample a))) := if_pos ha

end Src

/-! ### The host's sequence is the host's (R41) -/

theorem exec_script {i : Instr} {s t : State} (h : exec i s = .next t) : t.script = s.script := by
  rcases exec_cases h with ⟨e, -, -, -, rfl⟩ | ⟨-, -, mode, o, -, rfl⟩ | ⟨-, -, -, rfl⟩
  · exact s.raise_script e
  · exact s.completeEncode_script _ _
  · exact s.completeResolve_script _

theorem command_script {c : Byte} {s t : State} (h : command c s = .next t) :
    t.script = s.script := by
  rcases command_cases c s with ⟨i, -, hi⟩ | ⟨-, hi⟩ <;> rw [hi] at h
  · exact exec_script h
  · cases h; exact s.raise_script _

theorem transact_script {a : Transaction} {s t : State} (h : transact a s = .next t) :
    t.script = s.script := by
  rcases transact_cases h with ⟨-, c, hc⟩ | ⟨-, r, v, rfl⟩ | ⟨found, u, -, rfl⟩ |
    ⟨-, k, v, -, rfl⟩ | ⟨-, rfl⟩ | ⟨-, rfl⟩
  · exact command_script hc
  · exact s.writeReg_script r v
  · exact s.giveFound_script found u
  · rfl
  · rfl
  · exact platformReset_script s

end Sys2Proof.Machine
end

section
/-! PROOFS. The obligations of spec/20_memory.md. -/

namespace Sys2Proof.Machine

/-- Settles O18: the pixels of a matched geometry, sent one-to-one to the bits of the plane, reach all of
its `N` bytes and no other. -/
theorem planesHoldExactlyTheirBytes : Obligations.PlanesHoldExactlyTheirBytes := by
  intro i mode s hi hsizes hadm
  obtain ⟨o, ho⟩ := State.sizesMatch_orient hsizes
  refine ⟨s.encodedIn mode o, exec_completes hi hadm ho, fun p k => ?_⟩
  rw [State.encodedIn_plane]
  exact packPlane_isSome_iff (State.geometry_matched ho) hadm.1 mode s.sample p k

/-- Settles O42, by the rules of a write to and a read of `SRC`. -/
theorem srcWriteReadsBack : Obligations.SrcWriteReadsBack := by
  intro s a v ha
  refine ⟨_, transact_ws s v ha, s.sample_writeSrc_same a v, ?_, fun b hb =>
    ⟨Memory.read_write_other s.src v hb, s.sample_writeSrc_other v hb⟩, rfl⟩
  rw [transact_rs _ ha, s.sample_writeSrc_same]

/-- Settles O44: the step takes one transaction off the sequence, and the transaction leaves the rest. -/
theorem stepsFollowTheHostsSequence : Obligations.StepsFollowTheHostsSequence := by
  refine ⟨fun s hs => step_nil hs, fun s t rest hs => ⟨step_cons hs, fun s' h => ?_⟩⟩
  rw [step_cons hs] at h
  exact transact_script h

end Sys2Proof.Machine
end

section
/-! PROOFS. The command byte's fields, what the decoder can answer, and the rows a byte selects
(spec/30_encoding.md). -/

namespace Sys2Proof

/-! ### The two fields of the command byte (R50) -/

@[simp] theorem opField_commandOf (op m : BitVec 4) : opField (commandOf op m) = op :=
  BitVec.extractLsb'_append_eq_left

@[simp] theorem modeField_commandOf (op m : BitVec 4) : modeField (commandOf op m) = m :=
  BitVec.extractLsb'_append_eq_right

@[simp] theorem commandOf_fields (c : Byte) : commandOf (opField c) (modeField c) = c :=
  BitVec.extractLsb'_append_extractLsb' (w := 4) (len := 4)

theorem opField_toNat (c : Byte) : (opField c).toNat = c.toNat / 16 := by
  rw [opField, BitVec.extractLsb'_toNat, Nat.shiftRight_eq_div_pow]
  omega

theorem modeField_toNat (c : Byte) : (modeField c).toNat = c.toNat % 16 :=
  BitVec.extractLsb'_toNat 0 4 c

theorem opField_and (c d : Byte) : opField (c &&& d) = opField c &&& opField d :=
  BitVec.extractLsb'_and

theorem modeField_and (c d : Byte) : modeField (c &&& d) = modeField c &&& modeField d :=
  BitVec.extractLsb'_and

/-! ### The ENCODE class (R52, R54) -/

/-- From 4 on no `MODE` is named, and its range decides the row. -/
theorem decodeEncode_of_four_le {m : BitVec 4} (h : 4 ≤ m.toNat) :
    decodeEncode m = if m.toNat ≤ 7 then .encRsvd4 m else .encRsvd8 m := by
  have unnamed : ∀ k : BitVec 4, k.toNat < 4 → m ≠ k := by rintro k hk rfl; omega
  simp [decodeEncode, unnamed 0#4, unnamed 1#4, unnamed 2#4, unnamed 3#4]

theorem decodeEncode_rsvd4 {m : BitVec 4} (h : 4 ≤ m.toNat) (h' : m.toNat ≤ 7) :
    decodeEncode m = .encRsvd4 m := by rw [decodeEncode_of_four_le h, if_pos h']

theorem decodeEncode_rsvd8 {m : BitVec 4} (h : 8 ≤ m.toNat) : decodeEncode m = .encRsvd8 m := by
  rw [decodeEncode_of_four_le (by omega), if_neg (by omega)]

/-- `MODE` is one of the four named values or lies in the range of a reserved row. -/
theorem mode_cases (m : BitVec 4) : (4 ≤ m.toNat ∧ m.toNat ≤ 7) ∨ 8 ≤ m.toNat ∨
    m = 0#4 ∨ m = 1#4 ∨ m = 2#4 ∨ m = 3#4 := by bv_omega

/-- The decoder's command for a `MODE` is well formed and is encoded with that `MODE`. -/
theorem decodeEncode_spec (m : BitVec 4) :
    (decodeEncode m).wellFormed = true ∧ encode (decodeEncode m) = commandOf 1#4 m := by
  rcases mode_cases m with ⟨h, h'⟩ | h | rfl | rfl | rfl | rfl
  · rw [decodeEncode_rsvd4 h h']
    exact ⟨decide_eq_true ⟨h, h'⟩, rfl⟩
  · rw [decodeEncode_rsvd8 h]
    exact ⟨decide_eq_true h, rfl⟩
  all_goals exact ⟨rfl, rfl⟩

/-! ### What the decoder answers (R51, R55) -/

theorem decode_commandOf_encode (m : BitVec 4) :
    decode (commandOf 1#4 m) = .instr (decodeEncode m) := by simp [decode]

theorem decode_commandOf_res : decode (commandOf 2#4 0#4) = .instr .res := rfl

/-- A byte is in the ENCODE class, or is `RES`, or is illegal. -/
theorem decode_cases (c : Byte) :
    (∃ m, c = commandOf 1#4 m ∧ decode c = .instr (decodeEncode m)) ∨
    (c = commandOf 2#4 0#4 ∧ decode c = .instr .res) ∨
    (opField c ≠ 1#4 ∧ ¬ (opField c = 2#4 ∧ modeField c = 0#4) ∧
      decode c = .rejected .illegalCommand) := by
  by_cases h1 : opField c = 1#4
  · have hc : c = commandOf 1#4 (modeField c) := by rw [← h1, commandOf_fields]
    exact .inl ⟨_, hc, if_pos h1⟩
  by_cases h2 : opField c = 2#4 ∧ modeField c = 0#4
  · obtain ⟨hop, hmode⟩ := h2
    have hc : c = commandOf 2#4 0#4 := by rw [← hop, ← hmode, commandOf_fields]
    exact .inr (.inl ⟨hc, hc ▸ decode_commandOf_res⟩)
  · refine .inr (.inr ⟨h1, h2, ?_⟩)
    simp only [decode, if_neg h1, ← ite_and, if_neg h2]

theorem decode_rejected_iff (c : Byte) : decode c = .rejected .illegalCommand ↔
    opField c ≠ 1#4 ∧ ¬ (opField c = 2#4 ∧ modeField c = 0#4) := by
  rcases decode_cases c with ⟨m, rfl, h⟩ | ⟨rfl, h⟩ | ⟨h1, h2, h⟩
  · simp [h]
  · simp [h]
  · exact ⟨fun _ => ⟨h1, h2⟩, fun _ => h⟩

/-! ### The rows a byte selects (R56) -/

/-- Selecting a row compares each field under the row's mask. -/
theorem OpcodeRow.fields_of_selects {r : OpcodeRow} {c : Byte} (h : r.selects c = true) :
    opField c &&& opField r.mask = opField r.bits ∧
      modeField c &&& modeField r.mask = modeField r.bits := by
  have hbits : c &&& r.mask = r.bits := eq_of_beq h
  rw [← opField_and, ← modeField_and, hbits]
  exact ⟨rfl, rfl⟩

/-- Every named row masks the whole `OP` field; it is in the ENCODE class, or is `RES`, which masks the
whole byte. -/
theorem opcodeMap_fields : ∀ r ∈ opcodeMap, opField r.mask = BitVec.allOnes 4 ∧
    (opField r.bits = 1#4 ∨
      opField r.bits = 2#4 ∧ modeField r.mask = BitVec.allOnes 4 ∧ modeField r.bits = 0#4) := by
  decide

theorem fields_of_selects_opcodeMap {r : OpcodeRow} {c : Byte} (hr : r ∈ opcodeMap)
    (h : r.selects c = true) : opField c = 1#4 ∨ opField c = 2#4 ∧ modeField c = 0#4 := by
  obtain ⟨hop, hmode⟩ := OpcodeRow.fields_of_selects h
  obtain ⟨hmask, hbits | ⟨hbits, hmask', hbits'⟩⟩ := opcodeMap_fields r hr
  · rw [hmask, BitVec.and_allOnes, hbits] at hop
    exact .inl hop
  · rw [hmask, BitVec.and_allOnes, hbits] at hop
    rw [hmask', BitVec.and_allOnes, hbits'] at hmode
    exact .inr ⟨hop, hmode⟩

/-- The mnemonics of the rows R56 has for a decoding: the command's own row, or none. -/
def Decoded.mnemonics : Decoded → List String
  | .instr i => [mnemonicOf i]
  | .rejected _ => []

/-- A byte selects the row of the command it decodes to and no other; an illegal byte selects none. -/
theorem selected_mnemonics (c : Byte) :
    (opcodeMap.filter (·.selects c)).map (·.mnemonic) = (decode c).mnemonics := by
  rcases decode_cases c with ⟨m, rfl, h⟩ | ⟨rfl, h⟩ | ⟨h1, h2, h⟩ <;> rw [h]
  · have all : ∀ k : BitVec 4, (opcodeMap.filter (·.selects (commandOf 1#4 k))).map (·.mnemonic) =
        [mnemonicOf (decodeEncode k)] := by decide
    exact all m
  · decide
  · have none_selected : opcodeMap.filter (·.selects c) = [] :=
      List.filter_eq_nil_iff.2 fun r hr hs =>
        (fields_of_selects_opcodeMap hr hs).elim h1 h2
    rw [none_selected]
    rfl

end Sys2Proof
end

section
/-! PROOFS. The obligations of spec/30_encoding.md. -/

namespace Sys2Proof

/-- Settles O3: the decoder computes each of them. -/
theorem sampleBytesDecode : Obligations.SampleBytesDecode :=
  ⟨rfl, rfl, rfl, rfl, rfl, rfl, rfl, rfl⟩

/-- Settles O4: the mnemonics of the selected rows are those of the decoding, and the fields of the
illegal bytes give their range. -/
theorem decoderFollowsTheOpcodeMap : Obligations.DecoderFollowsTheOpcodeMap := by
  intro c
  have hsel := selected_mnemonics c
  refine ⟨fun i hi => ?_, ?_, ?_, ?_⟩
  · have hmem : mnemonicOf i ∈ (opcodeMap.filter (·.selects c)).map (·.mnemonic) := by
      rw [hsel, hi]
      exact List.mem_singleton_self _
    obtain ⟨r, hr, hname⟩ := List.mem_map.1 hmem
    obtain ⟨hmap, hs⟩ := List.mem_filter.1 hr
    exact ⟨r, hmap, hs, hname⟩
  · rw [← List.length_map (f := (·.mnemonic)), hsel]
    cases decode c <;> simp [Decoded.mnemonics]
  · have hnil : decode c = .rejected .illegalCommand ↔ (decode c).mnemonics = [] := by
      rcases decode c with i | ⟨⟨⟩⟩ <;> simp [Decoded.mnemonics]
    rw [hnil, ← hsel, List.map_eq_nil_iff, List.filter_eq_nil_iff]
    simp only [Bool.not_eq_true]
  · have hop := opField_toNat c
    have hmode := modeField_toNat c
    rw [decode_rejected_iff]
    bv_omega

/-- Settles O5: the decoder reads back both fields, and a reserved `MODE` lies in its row's range. -/
theorem decodeOfEncodeIsTheCommand : Obligations.DecodeOfEncodeIsTheCommand := by
  intro i hi
  cases i with
  | encRsvd4 m =>
    obtain ⟨h, h'⟩ := of_decide_eq_true hi
    exact (decode_commandOf_encode m).trans (by rw [decodeEncode_rsvd4 h h'])
  | encRsvd8 m =>
    exact (decode_commandOf_encode m).trans (by rw [decodeEncode_rsvd8 (of_decide_eq_true hi)])
  | res => exact decode_commandOf_res
  | _ => exact decode_commandOf_encode _

/-- Settles O6: a byte that decodes is `RES` or is put together from `OP = 1` and its `MODE`. -/
theorem encodeOfDecodeIsTheByte : Obligations.EncodeOfDecodeIsTheByte := by
  intro c i hi
  rcases decode_cases c with ⟨m, rfl, h⟩ | ⟨rfl, h⟩ | ⟨-, -, h⟩ <;> rw [h] at hi <;> cases hi
  · exact decodeEncode_spec m
  · exact ⟨rfl, rfl⟩

end Sys2Proof
end

section
/-! PROOFS. What an ENC command answers in each case, and what its planes depend on
(spec/41_encode.md). -/

namespace Sys2Proof.Machine

/-! ### The quantiser and the bits a plane takes (R66, R67) -/

theorem threshold_of_le {v : Byte} (h : Config.thresh ≤ v.toNat) : threshold v = 255#8 := if_pos h

theorem threshold_of_lt {v : Byte} (h : v.toNat < Config.thresh) : threshold v = 0#8 :=
  if_neg (Nat.not_le.2 h)

/-- FourGray is the one mode that does not threshold. -/
theorem quantise_eq_threshold {mode : Mode} (h : mode ≠ .fourGray) (v : Byte) :
    quantise mode v = threshold v := by
  cases mode with
  | fourGray => exact absurd rfl h
  | _ => rfl

/-- Bits 7 and 6 are set in 255 and clear in 0, so both planes take the comparison's result. -/
theorem planeBit_threshold (p : Plane) (v : Byte) :
    planeBit p (threshold v) = decide (Config.thresh ≤ v.toNat) := by
  by_cases h : Config.thresh ≤ v.toNat
  · rw [threshold_of_le h, decide_eq_true h]; cases p <;> rfl
  · rw [threshold_of_lt (Nat.not_le.1 h), decide_eq_false h]; cases p <;> rfl

theorem encModeOf_thresholded {i : Instr} (h : i = .encMono ∨ i = .encPart ∨ i = .encFast) :
    ∃ mode, encModeOf i = some mode ∧ mode ≠ .fourGray := by
  rcases h with rfl | rfl | rfl
  · exact ⟨.monochrome, rfl, nofun⟩
  · exact ⟨.partialRefresh, rfl, nofun⟩
  · exact ⟨.fast, rfl, nofun⟩

/-! ### The orientation (R68) -/

theorem orientation_direct {sw sh w h : Nat} (hm : sw = w ∧ sh = h) :
    orientation sw sh w h = some .direct := if_pos hm

theorem orientation_rotated {sw sh w h : Nat} (hd : ¬(sw = w ∧ sh = h)) (hr : sw = h ∧ sh = w) :
    orientation sw sh w h = some .rotated := (if_neg hd).trans (if_pos hr)

theorem State.orient_direct {s : State} (h : s.enc.srcW = s.enc.tgtW ∧ s.enc.srcH = s.enc.tgtH) :
    s.orient = some .direct := by
  simp only [BitVec.toNat_eq] at h
  exact orientation_direct h

theorem State.orient_rotated {s : State}
    (hd : ¬(s.enc.srcW = s.enc.tgtW ∧ s.enc.srcH = s.enc.tgtH))
    (hr : s.enc.srcW = s.enc.tgtH ∧ s.enc.srcH = s.enc.tgtW) : s.orient = some .rotated := by
  simp only [BitVec.toNat_eq] at hd hr
  exact orientation_rotated hd hr

/-! ### What the four commands answer, case by case (R69, R71) -/

section Answers
variable {mode : Mode} {s : State}

theorem encodeMode_mismatch (h : ¬ s.sizesMatch) :
    encodeMode mode s = .next (s.raise .sizeMismatch) := by
  rcases encodeMode_cases mode s with ⟨-, h1⟩ | ⟨hm, -⟩ | ⟨hm, -⟩ | ⟨-, o, ho, -⟩
  · exact h1
  · exact absurd hm h
  · exact absurd hm h
  · exact absurd ((State.sizesMatch_iff s).2 (by simp [ho])) h

theorem encodeMode_unaligned (hm : s.sizesMatch) (hw : s.enc.tgtW.toNat % 8 ≠ 0) :
    encodeMode mode s = .refused .targetWidthUnaligned := by
  rcases encodeMode_cases mode s with ⟨h, -⟩ | ⟨-, -, h1⟩ | ⟨-, h, -⟩ | ⟨⟨h, -⟩, -⟩
  · exact absurd hm h
  · exact h1
  · exact absurd h hw
  · exact absurd h hw

theorem encodeMode_tooLarge (hm : s.sizesMatch) (hw : s.enc.tgtW.toNat % 8 = 0)
    (hp : Config.maxPix < s.enc.tgtW.toNat * s.enc.tgtH.toNat) :
    encodeMode mode s = .refused .targetTooLarge := by
  rcases encodeMode_cases mode s with ⟨h, -⟩ | ⟨-, h, -⟩ | ⟨-, -, -, h1⟩ | ⟨⟨-, h⟩, -⟩
  · exact absurd hm h
  · exact absurd hw h
  · exact h1
  · exact absurd h (Nat.not_le.2 hp)

theorem encodeBody_reserved {m : BitVec 4} (h : 4 ≤ m.toNat) :
    encodeBody m s = .next (s.raise .invalidMode) := by
  unfold encodeBody; rw [modeOf_reserved h]

theorem encodeMode_completes (ha : s.geometryAdmitted) {o : Orient} (ho : s.orient = some o) :
    encodeMode mode s = .next (s.encodedIn mode o) := by
  obtain ⟨i, hi⟩ : ∃ i, encModeOf i = some mode := by
    cases mode with
    | monochrome => exact ⟨.encMono, rfl⟩
    | fourGray => exact ⟨.encGray4, rfl⟩
    | partialRefresh => exact ⟨.encPart, rfl⟩
    | fast => exact ⟨.encFast, rfl⟩
  rw [← exec_eq_encodeMode hi, exec_completes hi ha ho]

theorem State.encodedIn_status (o : Orient) : (s.encodedIn mode o).status
    = ⟨none, s.status.errLatch, true, s.status.resValid⟩ := rfl

end Answers

/-- Raising any error but RegionOutOfBounds keeps `RES_VALID` (R143). -/
theorem Status.raise_resValid {e : ErrorKind} (h : e ≠ .regionOutOfBounds) (st : Status) :
    (st.raise e).resValid = st.resValid := by
  cases e with
  | regionOutOfBounds => exact absurd rfl h
  | _ => rfl

/-! ### What the planes depend on (R77, R78, R80) -/

/-- The planes of two encodings in one geometry are equal when each pixel contributes the same bit. -/
theorem packPlane_congr {g : Geometry} {mode mode' : Mode} {sample sample' : Nat → Byte}
    {p p' : Plane} (h : ∀ x y, x < g.sw → y < g.sh →
      g.value mode sample p (x, y) = g.value mode' sample' p' (x, y)) :
    packPlane g mode sample p = packPlane g mode' sample' p' := by
  refine List.foldl_ext _ _ _ fun m ⟨x, y⟩ hxy => ?_
  obtain ⟨hx, hy⟩ := mem_pixels.1 hxy
  rw [packPixel_eq, packPixel_eq, h x y hx hy]

/-- The planes depend on the samples of the raster alone. -/
theorem packPlane_congr_sample {g : Geometry} {mode : Mode} {sample sample' : Nat → Byte} (p : Plane)
    (h : ∀ a, a < g.sw * g.sh → sample a = sample' a) :
    packPlane g mode sample p = packPlane g mode sample' p := by
  refine packPlane_congr fun x y hx hy => ?_
  have hin : x + y * g.sw < g.sw * g.sh := by
    have hrow : (y + 1) * g.sw ≤ g.sh * g.sw := Nat.mul_le_mul_right _ hy
    rw [Nat.add_mul, one_mul, mul_comm g.sh] at hrow
    omega
  exact congrArg (fun v => planeBit p (quantise mode v)) (h _ hin)

/-- The mode acts through its quantiser alone. -/
theorem encodeMode_congr_mode {mode mode' : Mode} (h : ∀ v, quantise mode v = quantise mode' v)
    (s : State) : encodeMode mode s = encodeMode mode' s := by
  have hplane : ∀ g p, packPlane g mode s.sample p = packPlane g mode' s.sample p :=
    fun g p => packPlane_congr fun x y _ _ => congrArg (planeBit p) (h _)
  simp only [encodeMode, hplane]

/-- Two states with the same sizes and raster get the same answer: the same error, the same refusal,
or the same planes. -/
theorem encodeMode_agree (mode : Mode) {s s' : State} (henc : s.enc = s'.enc)
    (hsample : ∀ a, a < s.enc.srcW.toNat * s.enc.srcH.toNat → s.sample a = s'.sample a) :
    (encodeMode mode s = .next (s.raise .sizeMismatch) ∧
      encodeMode mode s' = .next (s'.raise .sizeMismatch)) ∨
    (∃ r, encodeMode mode s = .refused r ∧ encodeMode mode s' = .refused r) ∨
    (∃ p0 p1, encodeMode mode s = .next (s.completeEncode p0 p1) ∧
      encodeMode mode s' = .next (s'.completeEncode p0 p1)) := by
  have hmatch : s.sizesMatch = s'.sizesMatch := by simp only [State.sizesMatch, henc]
  rcases encodeMode_cases mode s with ⟨hm, h⟩ | ⟨hm, hw, h⟩ | ⟨hm, hw, hp, h⟩ | ⟨ha, o, ho, h⟩
  · exact .inl ⟨h, encodeMode_mismatch (hmatch ▸ hm)⟩
  · exact .inr (.inl ⟨_, h, encodeMode_unaligned (hmatch ▸ hm) (henc ▸ hw)⟩)
  · exact .inr (.inl ⟨_, h, encodeMode_tooLarge (hmatch ▸ hm) (henc ▸ hw) (henc ▸ hp)⟩)
  · have ha' : s'.geometryAdmitted := by simpa only [State.geometryAdmitted, henc] using ha
    have ho' : s'.orient = some o := by simpa only [State.orient, henc] using ho
    have hg : s'.geometry o = s.geometry o := by simp only [State.geometry, henc]
    have hplane : ∀ p, packPlane (s.geometry o) mode s'.sample p
        = packPlane (s.geometry o) mode s.sample p :=
      fun p => (packPlane_congr_sample p hsample).symm
    refine .inr (.inr ⟨_, _, h, ?_⟩)
    rw [encodeMode_completes ha' ho', State.encodedIn, hg, hplane, hplane]

/-- Two memories agree at a byte that both hold when they agree in its bits. -/
theorem Memory.read_eq_of_bit {m n : Memory} {k : Nat} (hm : (m.read k).isSome = true)
    (hn : (n.read k).isSome = true) (h : ∀ j, j < 8 → m.bit k j = n.bit k j) :
    m.read k = n.read k := by
  obtain ⟨b, hb⟩ := Option.isSome_iff_exists.1 hm
  obtain ⟨c, hc⟩ := Option.isSome_iff_exists.1 hn
  rw [hb, hc]
  refine congrArg some (BitVec.eq_of_getLsbD_eq fun j hj => ?_)
  simpa [Memory.bit, hb, hc] using h j hj

/-! ### Where the pixels of a completed command stand (R70, R71, R78) -/

section Completed
variable {i : Instr} {mode : Mode} (hi : encModeOf i = some mode) {s : State}
  (ha : s.geometryAdmitted) {o : Orient} (ho : s.orient = some o)

include ha ho in
/-- Each plane holds the bit of a source pixel at the pixel's place. -/
theorem State.encodedIn_bit (mode : Mode) (p : Plane) {x y k j : Nat} (hx : x < s.enc.srcW.toNat)
    (hy : y < s.enc.srcH.toNat) (hp : (s.geometry o).place (x, y) = (k, j)) :
    ∃ b, ((s.encodedIn mode o).plane p).read k = some b ∧
      b.getLsbD j = planeBit p (quantise mode (s.sample (x + y * s.enc.srcW.toNat))) := by
  rw [State.encodedIn_plane]
  exact packPlane_bit (State.geometry_matched ho) ha.1 mode s.sample p hx hy hp

include hi ha ho in
/-- R71 with the place of each pixel left to `Geometry.place`. -/
theorem exec_completes_with_pixels :
    ∃ t, exec i s = .next t ∧ t.status = ⟨none, s.status.errLatch, true, s.status.resValid⟩ ∧
      ∀ {x y k j}, x < s.enc.srcW.toNat → y < s.enc.srcH.toNat →
        (s.geometry o).place (x, y) = (k, j) →
        ∃ b0 b1, t.p0.read k = some b0 ∧ t.p1.read k = some b1 ∧
          b0.getLsbD j = (quantise mode (s.sample (x + y * s.enc.srcW.toNat))).getLsbD 7 ∧
          b1.getLsbD j = (quantise mode (s.sample (x + y * s.enc.srcW.toNat))).getLsbD 6 := by
  refine ⟨s.encodedIn mode o, exec_completes hi ha ho, State.encodedIn_status o,
    fun hx hy hp => ?_⟩
  obtain ⟨b0, hr0, hb0⟩ := State.encodedIn_bit ha ho mode .p0 hx hy hp
  obtain ⟨b1, hr1, hb1⟩ := State.encodedIn_bit ha ho mode .p1 hx hy hp
  exact ⟨b0, b1, hr0, hr1, hb0, hb1⟩

end Completed

/-! ### The same command again (R80, R100) -/

@[simp] theorem State.raise_raise (s : State) (e : ErrorKind) : (s.raise e).raise e = s.raise e :=
  congrArg (fun st => { s with status := st }) (Status.raise_raise e s.status)

/-- An ENC command leaves its operands and `SRC`, so the second run takes the case of the first. -/
theorem encodeMode_again {mode : Mode} {s t : State} (h : encodeMode mode s = .next t) :
    encodeMode mode t = .next t := by
  rcases encodeMode_cases mode s with ⟨hm, h1⟩ | ⟨-, -, h1⟩ | ⟨-, -, -, h1⟩ | ⟨ha, o, ho, h1⟩ <;>
    rw [h1] at h <;> cases h
  · rw [encodeMode_mismatch (s := s.raise .sizeMismatch) hm, State.raise_raise]
  · exact encodeMode_completes (s := s.encodedIn mode o) ha ho

theorem encodeBody_again (m : BitVec 4) {s t : State} (h : encodeBody m s = .next t) :
    encodeBody m t = .next t := by
  unfold encodeBody at h ⊢
  cases hm : modeOf m with
  | none =>
    rw [hm] at h
    cases h
    exact congrArg Host.Outcome.next (s.raise_raise .invalidMode)
  | some mode =>
    rw [hm] at h
    exact encodeMode_again h

section Resolve
variable {map : Config.RotMap} {s : State} (hn : s.imageNotEmpty)
include hn

theorem resolveUnder_rejects (he : pastEdge (alignedWindow s.res) = true) :
    resolveUnder map s = .next (s.raise .regionOutOfBounds) := by
  rcases resolveUnder_cases map s with ⟨h, -⟩ | ⟨-, -, h1⟩ | ⟨-, h, -⟩
  · exact absurd hn h
  · exact h1
  · rw [he] at h; cases h

theorem resolveUnder_completes (he : pastEdge (alignedWindow s.res) = false) :
    resolveUnder map s
      = .next (s.completeResolve (placeRows map s.res (alignedWindow s.res)).toRegs) := by
  rcases resolveUnder_cases map s with ⟨h, -⟩ | ⟨-, h, -⟩ | ⟨-, -, h1⟩
  · exact absurd hn h
  · rw [he] at h; cases h
  · exact h1

end Resolve

/-- `RES` leaves its operands, so the second run takes the case of the first. -/
theorem resolveUnder_again {map : Config.RotMap} {s t : State} (h : resolveUnder map s = .next t) :
    resolveUnder map t = .next t := by
  rcases resolveUnder_cases map s with ⟨-, h1⟩ | ⟨hn, he, h1⟩ | ⟨hn, he, h1⟩ <;>
    rw [h1] at h <;> cases h
  · rw [resolveUnder_rejects (s := s.raise .regionOutOfBounds) hn he, State.raise_raise]
  · exact resolveUnder_completes (s := s.completeResolve _) hn he

end Sys2Proof.Machine
end

section
/-! PROOFS. The obligations of spec/41_encode.md. -/

namespace Sys2Proof.Machine

/-- Settles O16: the pixels of a completed command stand at their places, which in numbers are those of
R70 for either orientation. -/
theorem everyPixelGoesToItsPlace : Obligations.EveryPixelGoesToItsPlace := by
  refine fun i mode s hi ha => ⟨fun hd => ?_, fun hd hr => ?_⟩
  · obtain ⟨t, ht, hst, hpix⟩ := exec_completes_with_pixels hi ha (State.orient_direct hd)
    exact ⟨t, ht, hst, fun x y hx hy => hpix hx hy (Geometry.place_direct rfl x y)⟩
  · obtain ⟨t, ht, hst, hpix⟩ := exec_completes_with_pixels hi ha (State.orient_rotated hd hr)
    exact ⟨t, ht, hst, fun x y hx hy => hpix hx hy (Geometry.place_rotated rfl x y)⟩

/-- Settles O17: the plane bit at a pixel's place is that of the quantised sample, which a threshold
makes the comparison's result and FourGray leaves as it is. -/
theorem directPlaneBitsFollowTheSample : Obligations.DirectPlaneBitsFollowTheSample := by
  intro i s ha hw hh hi
  have ho : s.orient = some .direct := State.orient_direct ⟨hw, hh⟩
  have hplace : ∀ x y, (s.geometry .direct).place (x, y)
      = ((x + y * s.enc.srcW.toNat) / 8, 7 - x % 8) := fun x y => hw ▸ Geometry.place_direct rfl x y
  obtain h | rfl : (i = .encMono ∨ i = .encPart ∨ i = .encFast) ∨ i = .encGray4 := by tauto
  · obtain ⟨mode, hmode, hne⟩ := encModeOf_thresholded h
    refine ⟨_, exec_completes hmode ha ho, fun x y p hx hy => ?_⟩
    obtain ⟨b, hr, hb⟩ := State.encodedIn_bit ha ho mode p hx hy (hplace x y)
    rw [quantise_eq_threshold hne, planeBit_threshold] at hb
    refine ⟨b, hr, fun _ => by rw [hb, decide_eq_true_iff], fun hg => ?_⟩
    subst hg
    simp at h
  · refine ⟨_, exec_completes (mode := .fourGray) rfl ha ho, fun x y p hx hy => ?_⟩
    obtain ⟨b, hr, hb⟩ := State.encodedIn_bit ha ho .fourGray p hx hy (hplace x y)
    refine ⟨b, hr, fun hg => absurd rfl hg, fun _ => ?_⟩
    cases p <;> exact hb

/-- Settles O19: every bit of the planes is the place of the source pixel that R78 names. -/
theorem encodeEqualsTheClosedForm : Obligations.EncodeEqualsTheClosedForm := by
  intro i mode s o hi ha ho
  refine ⟨_, exec_completes hi ha ho, fun p k j hk hj => ?_⟩
  obtain ⟨x, y, hx, hy, hplace, hindex⟩ :=
    Geometry.place_surj (State.geometry_matched ho) ha.1 hk hj
  obtain ⟨b, hr, hb⟩ := State.encodedIn_bit ha ho mode p hx hy hplace
  refine ⟨b, hr, ?_⟩
  rw [gatherBit, ← hindex]
  exact hb

/-- Settles O20: below `N` both planes hold every byte, and each of its bits is written by one pixel. -/
theorem packingIgnoresOldContentsAndOrder : Obligations.PackingIgnoresOldContentsAndOrder := by
  intro g mode sample p m px hm hw hpx k hk
  refine Memory.read_eq_of_bit ((packOver_isSome_iff hm hw mode sample p m hpx k).2 (.inr hk))
    ((packPlane_isSome_iff hm hw mode sample p k).2 hk) fun j hj => ?_
  obtain ⟨x, y, hx, hy, hplace, -⟩ := Geometry.place_surj hm hw hk hj
  rw [packOver_bit_of_pixel hm hw mode sample p m hpx hx hy hplace, packPlane,
    packOver_bit_of_pixel hm hw mode sample p [] (List.Perm.refl _) hx hy hplace]

/-- Settles O21: a thresholded pixel contributes the same bit to both planes. -/
theorem thresholdedPlanesAreEqual : Obligations.ThresholdedPlanesAreEqual := by
  intro i s hi hsizes ha
  obtain ⟨mode, hmode, hne⟩ := encModeOf_thresholded hi
  obtain ⟨o, ho⟩ := State.sizesMatch_orient hsizes
  refine ⟨_, exec_completes hmode ha ho, rfl, packPlane_congr fun x y _ _ => ?_⟩
  simp only [Geometry.value, quantise_eq_threshold hne, planeBit_threshold]

/-- Settles O23: the geometry is admitted, and each plane lists its `N = 0` bytes. -/
theorem emptyTargetSucceedsWithEmptyPlanes : Obligations.EmptyTargetSucceedsWithEmptyPlanes := by
  intro i mode s hi hsizes hw hempty
  have hpix : s.enc.tgtW.toNat * s.enc.tgtH.toNat = 0 := Nat.mul_eq_zero.2 hempty
  have hbytes : s.planeBytes = 0 := by rw [State.planeBytes, hpix]
  obtain ⟨o, ho⟩ := State.sizesMatch_orient hsizes
  have hnil : ∀ p, packPlane (s.geometry o) mode s.sample p = [] := fun p => by
    have hlists : (packPlane (s.geometry o) mode s.sample p).lists s.planeBytes :=
      packPlane_lists (State.geometry_matched ho) hw mode s.sample p
    rw [hbytes] at hlists
    exact List.map_eq_nil_iff.1 hlists
  exact ⟨_, exec_completes hi ⟨hw, hpix ▸ Nat.zero_le _⟩ ho, State.encodedIn_status o, hnil .p0,
    hnil .p1⟩

/-- Settles O24: the cases of an ENC command are decided by the sizes, then the width, then the
product; a reserved mode comes before them all. -/
theorem admissionFollowsTheGeometry : Obligations.AdmissionFollowsTheGeometry := by
  intro i mode s hi
  rw [exec_eq_encodeMode hi]
  refine ⟨fun hm hw hp => ?_, encodeMode_unaligned, encodeMode_tooLarge,
    fun hm => ⟨_, encodeMode_mismatch hm, rfl⟩,
    fun m h4 _ => ⟨_, encodeBody_reserved h4, rfl⟩,
    fun m h8 => ⟨_, encodeBody_reserved (by omega), rfl⟩⟩
  obtain ⟨o, ho⟩ := State.sizesMatch_orient hm
  exact ⟨_, encodeMode_completes ⟨hw, hp⟩ ho, rfl⟩

/-- Settles O25: an ENCODE command either raises an error, which is no RegionOutOfBounds, or completes;
the one writes `STATUS` alone, the other `STATUS` and the planes. -/
theorem encodeFrame : Obligations.EncodeFrame := by
  intro i s t hi h
  rcases exec_cases h with ⟨e, -, -, he, rfl⟩ | ⟨-, -, mode, o, -, rfl⟩ | ⟨hres, -⟩
  · refine ⟨rfl, rfl, rfl, rfl, fun _ => rfl, Status.raise_resValid (he hi) _, rfl, rfl, rfl, rfl,
      fun hnone => ?_, fun _ p a => by rw [State.raise_plane]⟩
    rw [State.raise_status, Status.raise_err] at hnone
    cases hnone
  · exact ⟨rfl, rfl, rfl, rfl, fun _ => rfl, rfl, rfl, rfl, rfl, rfl, fun _ => rfl,
      fun herr => absurd rfl herr⟩
  · exact absurd hres hi

/-- Settles O26, from the three ways in which the two states can agree. -/
theorem encodeReadsOnlySizesAndRaster : Obligations.EncodeReadsOnlySizesAndRaster := by
  intro i mode s s' hi henc hsample
  simp only [exec_eq_encodeMode hi]
  rcases encodeMode_agree mode henc hsample with ⟨h, h'⟩ | ⟨r, h, h'⟩ | ⟨p0, p1, h, h'⟩ <;>
    rw [h, h']
  · refine ⟨fun t ht => ?_, nofun⟩
    cases ht
    exact ⟨_, rfl, rfl, rfl, nofun⟩
  · exact ⟨nofun, fun _ hr => hr⟩
  · refine ⟨fun t ht => ?_, nofun⟩
    cases ht
    exact ⟨_, rfl, rfl, rfl, fun _ => ⟨rfl, rfl⟩⟩

/-- Settles O36: neither unit changes what its commands read. -/
theorem repeatingACommandChangesNothing : Obligations.RepeatingACommandChangesNothing := by
  intro i s t h
  cases i with
  | res => exact resolveUnder_again h
  | encMono => exact encodeBody_again 0#4 h
  | encGray4 => exact encodeBody_again 1#4 h
  | encPart => exact encodeBody_again 2#4 h
  | encFast => exact encodeBody_again 3#4 h
  | encRsvd4 m => exact encodeBody_again m h
  | encRsvd8 m => exact encodeBody_again m h

/-- Settles O10: a well-formed reserved mode is 4 or above, and the mode is looked at first. -/
theorem reservedModesRaiseInvalidMode : Obligations.ReservedModesRaiseInvalidMode := by
  refine fun s m => ⟨fun h => ?_, fun h => ?_⟩
  · obtain ⟨h4, -⟩ := of_decide_eq_true h
    exact encodeBody_reserved h4
  · have h8 : 8 ≤ m.toNat := of_decide_eq_true h
    exact encodeBody_reserved (by omega)

/-- Settles O14: the three modes threshold, FourGray does not. -/
theorem quantiserThresholdsAtEighty : Obligations.QuantiserThresholdsAtEighty :=
  ⟨rfl, fun _ => ⟨fun h => ⟨threshold_of_le h, threshold_of_le h, threshold_of_le h⟩,
    fun h => ⟨threshold_of_lt h, threshold_of_lt h, threshold_of_lt h⟩, rfl⟩⟩

/-- Settles O15, one case of the test after the other. -/
theorem orientationIsDirectFirst : Obligations.OrientationIsDirectFirst :=
  fun _ _ _ _ => ⟨orientation_direct, orientation_rotated,
    fun hd hr => orientation_none.2 ⟨hd, hr⟩⟩

/-- Settles O22: the three modes have one quantiser. -/
theorem monoPartFastAreOneFunction : Obligations.MonoPartFastAreOneFunction :=
  fun s => ⟨encodeMode_congr_mode (mode := .partialRefresh) (mode' := .monochrome) (fun _ => rfl) s,
    encodeMode_congr_mode (mode := .fast) (mode' := .monochrome) (fun _ => rfl) s⟩

end Sys2Proof.Machine
end

section
/-! PROOFS. `RES`: its window in numbers, its answers, and what it reads (spec/42_resolve.md). -/

namespace Sys2Proof.Machine

/-! ### The window in numbers (R92 to R95) -/

theorem frameTransposed_iff (s : State) : frameTransposed s.res = true ↔ s.frameIsTransposed :=
  decide_eq_true_iff

theorem alignedWindow_transposed {s : State} (h : s.frameIsTransposed) :
    alignedWindow s.res = windowFrom (8 * (s.res.yStart.toNat / 8)) s.res.xStart.toNat
      (8 * ((s.res.picH.toNat + 7) / 8)) s.res.picW.toNat := by
  rw [alignedWindow, if_pos ((frameTransposed_iff s).2 h), floor8_eq, ceil8_eq]

theorem alignedWindow_normal {s : State} (h : ¬ s.frameIsTransposed) :
    alignedWindow s.res = windowFrom (8 * (s.res.xStart.toNat / 8)) s.res.yStart.toNat
      (8 * ((s.res.picW.toNat + 7) / 8)) s.res.picH.toNat := by
  rw [alignedWindow, if_neg (mt (frameTransposed_iff s).1 h), floor8_eq, ceil8_eq]

/-- The ends of the model's window are those of the statements, in both branches. -/
theorem alignedWindow_ends (s : State) :
    (alignedWindow s.res).xEnd = s.windowXEnd ∧ (alignedWindow s.res).yEnd = s.windowYEnd := by
  unfold State.windowXEnd State.windowYEnd
  by_cases h : s.frameIsTransposed
  · rw [alignedWindow_transposed h, if_pos h, if_pos h]
    exact ⟨rfl, rfl⟩
  · rw [alignedWindow_normal h, if_neg h, if_neg h]
    exact ⟨rfl, rfl⟩

theorem pastEdge_alignedWindow (s : State) :
    pastEdge (alignedWindow s.res) = true ↔ 399 < s.windowXEnd ∨ 299 < s.windowYEnd := by
  obtain ⟨hx, hy⟩ := alignedWindow_ends s
  rw [← Bool.not_eq_false, pastEdge_eq_false, hx, hy]
  omega

/-! ### What `RES` answers (R91) -/

theorem resolveUnder_refuses (map : Config.RotMap) {s : State}
    (h : s.res.picW.toNat = 0 ∨ s.res.picH.toNat = 0) :
    resolveUnder map s = .refused .emptyPastedImage := if_pos h

/-- All the next states of `RES`. -/
theorem exec_res_cases {s t : State} (h : exec .res s = .next t) :
    t = s.raise .regionOutOfBounds ∨
    (s.imageNotEmpty ∧ pastEdge (alignedWindow s.res) = false ∧
      t = s.completeResolve (alignedWindow s.res).toRegs) := by
  rcases exec_cases h with ⟨e, -, he, -, ht⟩ | ⟨hne, -⟩ | ⟨-, hs⟩
  · exact .inl (he rfl ▸ ht)
  · exact absurd rfl hne
  · exact .inr hs

/-- `RES` without an error took the success branch. -/
theorem exec_res_success {s t : State} (h : exec .res s = .next t) (herr : t.status.err = none) :
    s.imageNotEmpty ∧ pastEdge (alignedWindow s.res) = false ∧
      t = s.completeResolve (alignedWindow s.res).toRegs := by
  rcases exec_res_cases h with rfl | hs
  · simp at herr
  · exact hs

/-- `RES` raises its error exactly when the window passes the panel's edge. -/
theorem exec_res_raises_iff {s : State} (hn : s.imageNotEmpty) :
    exec .res s = .next (s.raise .regionOutOfBounds) ↔ pastEdge (alignedWindow s.res) = true := by
  refine ⟨fun h => ?_, resolveUnder_rejects hn⟩
  by_contra he
  have hok := resolveUnder_completes (map := .swap) hn (Bool.not_eq_true _ ▸ he)
  have hsame := Host.Outcome.next.inj (h.symm.trans hok)
  simpa using congrArg (fun u : State => u.status.err) hsame

/-- The result registers hold a window that ends inside the panel without a loss: its numbers are below
`2 ^ 16`. -/
theorem windowFrom_toRegs {x y w h : Nat} (hw : 1 ≤ w) (hh : 1 ≤ h) (hx : x + w - 1 ≤ 399)
    (hy : y + h - 1 ≤ 299) {r : WinRegs} (hr : r = (windowFrom x y w h).toRegs) :
    r.winX.toNat = x ∧ r.picWAl.toNat = w ∧ r.winXEnd.toNat = x + w - 1 ∧
      r.winY.toNat = y ∧ r.picHAl.toNat = h ∧ r.winYEnd.toNat = y + h - 1 := by
  have toNat : ∀ n : Nat, n ≤ 400 → (BitVec.ofNat 16 n).toNat = n := fun n hn => by simp; omega
  subst hr
  exact ⟨toNat x (by omega), toNat w (by omega), toNat (x + w - 1) (by omega), toNat y (by omega),
    toNat h (by omega), toNat (y + h - 1) (by omega)⟩

/-- `RES` on a window that ends inside the panel: `STATUS` and the six results (R91, R95). -/
theorem exec_res_of_window {s : State} (hn : s.imageNotEmpty) {x y w h : Nat}
    (hwin : alignedWindow s.res = windowFrom x y w h) (hw : 1 ≤ w) (hh : 1 ≤ h)
    (hx : x + w - 1 ≤ 399) (hy : y + h - 1 ≤ 299) :
    ∃ t, exec .res s = .next t ∧ t.status = ⟨none, s.status.errLatch, s.status.pValid, true⟩ ∧
      t.win.winX.toNat = x ∧ t.win.picWAl.toNat = w ∧ t.win.winXEnd.toNat = x + w - 1 ∧
      t.win.winY.toNat = y ∧ t.win.picHAl.toNat = h ∧ t.win.winYEnd.toNat = y + h - 1 := by
  have he : pastEdge (alignedWindow s.res) = false := by
    rw [hwin]
    exact (pastEdge_eq_false _).2 ⟨hx, hy⟩
  exact ⟨_, resolveUnder_completes (map := .swap) hn he, rfl,
    windowFrom_toRegs hw hh hx hy (congrArg Window.toRegs hwin)⟩

/-! ### What `RES` reads (R100) -/

/-- Two states with the same operands get the same answer: the refusal, the error, or one window. -/
theorem resolveUnder_agree (map : Config.RotMap) {s s' : State} (hres : s.res = s'.res) :
    (∃ r, resolveUnder map s = .refused r ∧ resolveUnder map s' = .refused r) ∨
    (resolveUnder map s = .next (s.raise .regionOutOfBounds) ∧
      resolveUnder map s' = .next (s'.raise .regionOutOfBounds)) ∨
    (∃ w, resolveUnder map s = .next (s.completeResolve w) ∧
      resolveUnder map s' = .next (s'.completeResolve w)) := by
  have himage : s.imageNotEmpty = s'.imageNotEmpty := by simp only [State.imageNotEmpty, hres]
  rcases resolveUnder_cases map s with ⟨hn, h⟩ | ⟨hn, he, h⟩ | ⟨hn, he, h⟩
  · have hempty : s'.res.picW.toNat = 0 ∨ s'.res.picH.toNat = 0 := by
      rw [himage] at hn
      omega
    exact .inl ⟨_, h, resolveUnder_refuses map hempty⟩
  · exact .inr (.inl ⟨h, resolveUnder_rejects (himage ▸ hn) (hres ▸ he)⟩)
  · refine .inr (.inr ⟨_, h, ?_⟩)
    rw [hres]
    exact resolveUnder_completes (himage ▸ hn) (hres ▸ he)

end Sys2Proof.Machine
end

section
/-! PROOFS. The obligations of spec/42_resolve.md. -/

namespace Sys2Proof.Machine

/-- Settles O27: the window of this branch ends inside the panel, and so stands in the registers as
computed. -/
theorem resolveNormalFrame : Obligations.ResolveNormalFrame := by
  intro s hf hn hx hy
  obtain ⟨hw, hh⟩ := hn
  exact exec_res_of_window ⟨hw, hh⟩ (alignedWindow_normal hf) (by omega) hh hx hy

/-- Settles O28: as O27, with the window of the other branch. -/
theorem resolveTransposedFrame : Obligations.ResolveTransposedFrame := by
  intro s hf hn hx hy
  obtain ⟨hw, hh⟩ := hn
  exact exec_res_of_window ⟨hw, hh⟩ (alignedWindow_transposed hf) (by omega) hw hx hy

/-- Settles O29: the bounds check is on the two ends, and only its failure raises the error. -/
theorem resolveRejectsExactlyPastTheEdge : Obligations.ResolveRejectsExactlyPastTheEdge :=
  fun s hn => (pastEdge_alignedWindow s).symm.trans (exec_res_raises_iff hn).symm

/-- Settles O30: the window passed the bounds check, and its start and width are rounded. -/
theorem resolvedWindowIsInsideAndAligned : Obligations.ResolvedWindowIsInsideAndAligned := by
  intro s t h herr
  obtain ⟨⟨hw, hh⟩, he, rfl⟩ := exec_res_success h herr
  exact alignedWindow_guaranteed hw hh he

/-- Settles O31: R99 is the admitted geometry of R69, and with an orientation found the command
completes. -/
theorem resolvedWindowIsEncodable : Obligations.ResolvedWindowIsEncodable := by
  intro s t u i mode h herr hi hw hh hsizes
  obtain ⟨-, hmod, -, -, -, -, -, -, -, -, -, -, hpix⟩ := resolvedWindowIsInsideAndAligned s t h herr
  have hadm : u.geometryAdmitted := by
    rw [State.geometryAdmitted, hw, hh]
    exact ⟨hmod, hpix⟩
  obtain ⟨o, ho⟩ := State.sizesMatch_orient hsizes
  exact ⟨_, exec_completes hi hadm ho, rfl, rfl⟩

/-- Settles O33: the error writes `STATUS` alone, the success `STATUS` and the result registers. -/
theorem resolveFrame : Obligations.ResolveFrame := by
  intro s t h
  rcases exec_res_cases h with rfl | ⟨-, -, rfl⟩
  · exact ⟨rfl, rfl, rfl, rfl, rfl, fun _ => rfl, rfl, rfl, rfl, rfl, rfl, nofun, fun _ => rfl⟩
  · exact ⟨rfl, rfl, rfl, rfl, rfl, fun _ => rfl, rfl, rfl, rfl, rfl, rfl, fun _ => rfl,
      fun herr => absurd rfl herr⟩

/-- Settles O34, from the three ways in which the two states can agree. -/
theorem resolveReadsOnlyItsOperands : Obligations.ResolveReadsOnlyItsOperands := by
  intro s s' hres
  simp only [exec, execRes]
  rcases resolveUnder_agree Config.resRotMap hres with ⟨r, h, h'⟩ | ⟨h, h'⟩ | ⟨w, h, h'⟩ <;>
    rw [h, h']
  · exact ⟨nofun, fun _ hr => hr⟩
  · refine ⟨fun t ht => ?_, nofun⟩
    cases ht
    exact ⟨_, rfl, rfl, rfl, nofun⟩
  · refine ⟨fun t ht => ?_, nofun⟩
    cases ht
    exact ⟨_, rfl, rfl, rfl, fun _ => rfl⟩

/-- Settles O32: an empty image is looked for first. -/
theorem emptyPastedImageIsRefused : Obligations.EmptyPastedImageIsRefused :=
  fun _ h => resolveUnder_refuses _ h

end Sys2Proof.Machine
end

section
/-! PROOFS. When a command and a transaction have a meaning, and when a read finds a value: the host's
duties (spec/45_host_controller.md R128). -/

namespace Sys2Proof.Machine

/-! ### Commands -/

/-- A command of one of the four modes has a meaning unless its sizes match a target outside the
geometry of R69. -/
theorem encodeMode_answers_iff (mode : Mode) (s : State) :
    (∃ t, encodeMode mode s = .next t) ↔ (s.sizesMatch → s.geometryAdmitted) := by
  rcases encodeMode_cases mode s with ⟨hm, h⟩ | ⟨hm, hw, h⟩ | ⟨hm, -, hp, h⟩ | ⟨ha, o, -, h⟩
  · simp [h, hm]
  · simp [h, hm, State.geometryAdmitted, hw]
  · simp [h, hm, State.geometryAdmitted, hp]
  · exact ⟨fun _ _ => ha, fun _ => ⟨_, h⟩⟩

/-- A reserved mode is an error whatever the sizes are, and so asks nothing of them. -/
theorem encodeBody_answers_iff (m : BitVec 4) (s : State) :
    (∃ t, encodeBody m s = .next t) ↔ (m.toNat ≤ 3 → s.sizesMatch → s.geometryAdmitted) := by
  by_cases h : m.toNat ≤ 3
  · obtain ⟨mode, hm⟩ := modeOf_of_le h
    rw [encodeBody_of_mode hm, encodeMode_answers_iff]
    exact ⟨fun ha _ => ha, fun ha => ha h⟩
  · exact ⟨fun _ h3 => absurd h3 h, fun _ => ⟨_, encodeBody_reserved (by omega)⟩⟩

theorem exec_res_answers_iff (s : State) : (∃ t, exec .res s = .next t) ↔ s.imageNotEmpty := by
  show (∃ t, resolveUnder Config.resRotMap s = .next t) ↔ _
  rcases resolveUnder_cases Config.resRotMap s with ⟨hn, h⟩ | ⟨hn, -, h⟩ | ⟨hn, -, h⟩
  · exact iff_of_false (by simp [h]) hn
  · exact iff_of_true ⟨_, h⟩ hn
  · exact iff_of_true ⟨_, h⟩ hn

theorem exec_answers_iff (i : Instr) (s : State) : (∃ t, exec i s = .next t) ↔ commandDuty i s := by
  cases i with
  | encMono => exact encodeMode_answers_iff .monochrome s
  | encGray4 => exact encodeMode_answers_iff .fourGray s
  | encPart => exact encodeMode_answers_iff .partialRefresh s
  | encFast => exact encodeMode_answers_iff .fast s
  | encRsvd4 m => exact encodeBody_answers_iff m s
  | encRsvd8 m => exact encodeBody_answers_iff m s
  | res => exact exec_res_answers_iff s

theorem command_answers_iff (c : Byte) (s : State) : (∃ t, command c s = .next t) ↔ byteDuty c s := by
  unfold byteDuty
  rcases command_cases c s with ⟨i, hd, h⟩ | ⟨hd, h⟩ <;> rw [h, hd]
  · exact exec_answers_iff i s
  · exact ⟨fun _ => trivial, fun _ => ⟨_, rfl⟩⟩

/-! ### Transactions -/

/-- A check that answers a state where it holds, and refuses elsewhere. -/
theorem guarded_answers_iff {P : Prop} [Decidable P] (t : State) (r : Refusal) :
    (∃ s', (if P then .next t else .refused r : Host.Outcome State Fault Refusal) = .next s') ↔ P := by
  split_ifs with h <;> simp [h]

/-- A write to a register has a meaning if the register exists and a write to `CMD` is a byte that has
one. -/
theorem hostWrite_answers_iff (n : Nat) (v : Word) (s : State) :
    (∃ t, hostWrite n v s = .next t) ↔
      n ≤ 17 ∧ (n = 0 → v.toNat < 256 ∧ byteDuty (v.setWidth 8) s) := by
  by_cases hn : n ≤ 17
  · obtain ⟨r, rfl⟩ := Reg.exists_number hn
    by_cases hr : r = .cmd
    · subst hr
      show (∃ t, (if v.toNat < 256 then command (v.setWidth 8) s else .refused .commandNotAByte)
        = .next t) ↔ _
      rw [← command_answers_iff]
      split_ifs with hv <;> simp [hv, Reg.number]
    · have h0 : r.number ≠ 0 := by cases r <;> simp [Reg.number] at hr ⊢
      exact ⟨fun _ => ⟨hn, fun h => absurd h h0⟩, fun _ => ⟨_, transact_wr s hr v⟩⟩
  · have h : hostWrite n v s = .refused .noSuchRegister := by
      unfold hostWrite; rw [Reg.ofNumber_eq_none (by omega)]
    simp [h, hn]

theorem hostRead_answers_iff (n : Nat) (s : State) : (∃ t, hostRead n s = .next t) ↔ n ≤ 17 := by
  by_cases hn : n ≤ 17
  · obtain ⟨r, rfl⟩ := Reg.exists_number hn
    exact ⟨fun _ => hn, fun _ => ⟨_, transact_rd s r⟩⟩
  · have h : hostRead n s = .refused .noSuchRegister := by
      unfold hostRead; rw [Reg.ofNumber_eq_none (by omega)]
    simp [h, hn]

theorem transact_answers_iff (a : Transaction) (s : State) :
    (∃ t, transact a s = .next t) ↔ transactionAdmitted a s := by
  cases a with
  | wr n v => exact hostWrite_answers_iff n v s
  | rd n => exact hostRead_answers_iff n s
  | ws k v => exact guarded_answers_iff _ _
  | rs k => exact guarded_answers_iff _ _
  | rp p k => exact guarded_answers_iff _ _
  | wp p k v => exact guarded_answers_iff _ _
  | cmd c => exact command_answers_iff c s
  | reset => exact ⟨fun _ => trivial, fun _ => ⟨_, rfl⟩⟩

/-! ### The fault bit (spec/93_implementation_defined.md Part 1, U5 to U7) -/

theorem exec_faulted {i : Instr} {s t : State} (h : exec i s = .next t) : t.faulted = s.faulted := by
  rcases exec_cases h with ⟨e, -, -, -, rfl⟩ | ⟨-, -, mode, o, -, rfl⟩ | ⟨-, -, -, rfl⟩
  · exact s.raise_faulted e
  · exact s.completeEncode_faulted _ _
  · exact s.completeResolve_faulted _

theorem command_faulted {c : Byte} {s t : State} (h : command c s = .next t) :
    t.faulted = s.faulted := by
  rcases command_cases c s with ⟨i, -, hi⟩ | ⟨-, hi⟩ <;> rw [hi] at h
  · exact exec_faulted h
  · cases h; exact s.raise_faulted _

/-- A run without a fault stays without one exactly when its read, if it is one, finds a value. -/
theorem transact_faulted_iff {a : Transaction} {s t : State} (h : transact a s = .next t)
    (hf : s.faulted = false) : t.faulted = false ↔ readsValue a s := by
  rcases transact_cases h with ⟨hr, c, hc⟩ | ⟨hr, r, v, rfl⟩ | ⟨found, u, hr, rfl⟩ |
    ⟨hr, k, v, -, rfl⟩ | ⟨hr, rfl⟩ | ⟨rfl, rfl⟩
  · exact iff_of_true ((command_faulted hc).trans hf) hr
  · exact iff_of_true ((s.writeReg_faulted r v).trans hf) hr
  · rw [hr, State.giveFound_faulted, hf]
    cases found <;> simp
  · exact iff_of_true hf hr
  · exact iff_of_true hf hr
  · exact iff_of_true hf trivial

end Sys2Proof.Machine
end

section
/-! PROOFS. What each of the controller's five calls can answer, and when it answers
(spec/45_host_controller.md section 2). -/

namespace Sys2Proof.Machine.Controller

variable {c c' : Controller}

/-! ### Waits -/

theorem waitIdle_answers (h : c.waitsLeft ≠ some 0) :
    ∃ w, c.waitIdle = .next { c.emit [.waitIdle] with waitsLeft := w } := by
  rcases c.waitIdle_cases with ⟨-, w, -, he⟩ | ⟨h0, -⟩
  · exact ⟨w, he⟩
  · exact absurd h0 h

theorem waitIdle_hangs (h : c.waitsLeft = some 0) :
    c.waitIdle = .fault (.waitsForever (c.emit [.waitIdle])) := by
  rcases c.waitIdle_cases with ⟨h0, -⟩ | ⟨-, he⟩
  · exact absurd h h0
  · exact he

theorem waitIdle_inv (h : c.waitIdle = .next c') :
    ∃ w, c' = { c.emit [.waitIdle] with waitsLeft := w } := by
  rcases c.waitIdle_cases with ⟨-, w, -, he⟩ | ⟨-, he⟩ <;> rw [he] at h <;> cases h
  exact ⟨w, rfl⟩

theorem waitIdle_stuck (h : c.waitIdle = .fault (.waitsForever c')) : c' = c.emit [.waitIdle] := by
  rcases c.waitIdle_cases with ⟨-, w, -, he⟩ | ⟨-, he⟩ <;> rw [he] at h <;> cases h
  rfl

theorem perform_inv {ts : List TransportCall} (h : c.perform ts = .next c') :
    ∃ w, c' = { c.emit ts with waitsLeft := w } := by
  rcases c.perform_cases ts with ⟨w, -, he⟩ | ⟨-, sent, he⟩ <;> rw [he] at h <;> cases h
  exact ⟨w, rfl⟩

theorem perform_stuck {ts : List TransportCall} (h : c.perform ts = .fault (.waitsForever c')) :
    ∃ sent, c' = { c.emit (sent ++ [.waitIdle]) with waitsLeft := some 0 } := by
  rcases c.perform_cases ts with ⟨w, -, he⟩ | ⟨-, sent, he⟩ <;> rw [he] at h <;> cases h
  exact ⟨sent, rfl⟩

/-- When the next wait never ends, a sequence that gets through has not waited. -/
theorem perform_waitsLeft_zero {ts : List TransportCall} (h0 : c.waitsLeft = some 0)
    (h : c.perform ts = .next c') : c'.waitsLeft = some 0 := by
  induction ts generalizing c with
  | nil => cases h; exact h0
  | cons t ts ih =>
    unfold perform at h
    split_ifs at h with ht
    · rw [waitIdle_hangs h0] at h
      cases h
    · exact ih (c := c.emit [t]) h0 h

/-! ### Updates of the panel -/

/-- The wait is the last call of a refresh. -/
theorem append_refresh (calls sent : List TransportCall) :
    calls ++ (sent ++ refresh) = calls ++ (sent ++ [send .displayRefresh]) ++ [.waitIdle] := by
  simp [refresh]

section Update
variable {m : BitVec 4} {mode : Mode} (hm : modeOf m = some mode) (body : List TransportCall)
  (finish : Controller → Controller)
include hm

theorem updatePanel_answers (h : c.waitsLeft ≠ some 0) : ∃ w, c.updatePanel m body finish
    = .next (finish { c.emit (lutCalls mode ++ body ++ refresh) with waitsLeft := w }, .returned) := by
  rcases c.updatePanel_cases m body finish with ⟨hn, -⟩ | ⟨mode', hm', ⟨-, he⟩ | ⟨h0, -⟩⟩
  · rw [hm] at hn; cases hn
  · rw [hm] at hm'; cases hm'; exact he
  · exact absurd h0 h

theorem updatePanel_hangs (h : c.waitsLeft = some 0) :
    ∃ c', c.updatePanel m body finish = .fault (.waitsForever c') := by
  rcases c.updatePanel_cases m body finish with ⟨hn, -⟩ | ⟨mode', -, ⟨h0, -⟩ | ⟨-, he⟩⟩
  · rw [hm] at hn; cases hn
  · exact absurd h h0
  · exact ⟨_, he⟩

/-- An update whose end leaves the block returns or hangs, as the panel ends the wait or never does. -/
theorem updatePanel_returns_or_hangs (hfinish : ∀ d, (finish d).block = d.block) :
    (c.waitsLeft ≠ some 0 →
      ∃ c', c.updatePanel m body finish = .next (c', .returned) ∧ c'.block = c.block) ∧
    (c.waitsLeft = some 0 → ∃ c', c.updatePanel m body finish = .fault (.waitsForever c')) := by
  refine ⟨fun h => ?_, updatePanel_hangs hm body finish⟩
  obtain ⟨w, hw⟩ := updatePanel_answers hm body finish h
  exact ⟨_, hw, hfinish _⟩

end Update

/-! ### The lifecycle (R111) -/

theorem whenActive_refuses (h : c.lifecycle ≠ .active) (body : Call (Controller × CallResult)) :
    c.whenActive body = .refused .notValidNow := by
  unfold whenActive
  cases hl : c.lifecycle with
  | active => exact absurd hl h
  | uninitialized => rfl
  | sleeping => rfl

/-! ### `init` (R113) -/

theorem init_succeeded (h : c.lifecycle ≠ .active) :
    c.init 0 = Call.andThen ((c.emit [.moduleInit]).perform Config.initSequence) fun c' =>
      .next ({ c' with lifecycle := .active }, .initOk) := by
  unfold init
  cases hl : c.lifecycle with
  | active => exact absurd hl h
  | uninitialized => rfl
  | sleeping => rfl

theorem init_answers (hl : c.lifecycle ≠ .active) (h : c.waitsLeft = none) :
    ∃ c', c.init 0 = .next (c', .initOk) ∧ c'.lifecycle = .active := by
  rw [init_succeeded hl]
  rcases (c.emit [.moduleInit]).perform_cases Config.initSequence with ⟨w, -, hp⟩ | ⟨hn, -⟩
  · rw [hp]
    exact ⟨_, rfl, rfl⟩
  · exact absurd h hn

theorem init_failed (h : c.lifecycle ≠ .active) {status : Int} (hs : status ≠ 0) :
    c.init status = .next (c.emit [.moduleInit], .initFailed) := by
  unfold init
  cases hl : c.lifecycle with
  | active => exact absurd hl h
  | uninitialized => exact if_neg hs
  | sleeping => exact if_neg hs

theorem init_active (h : c.lifecycle = .active) (status : Int) :
    c.init status = .refused .notValidNow := by unfold init; rw [h]

/-- All that `init` can answer. -/
theorem init_inv {status : Int} {r : Controller × CallResult} (h : c.init status = .next r) :
    r = (c.emit [.moduleInit], .initFailed) ∨
      ∃ w, r = ({ c.emit (.moduleInit :: Config.initSequence) with
        lifecycle := .active, waitsLeft := w }, .initOk) := by
  by_cases hl : c.lifecycle = .active
  · rw [init_active hl] at h; cases h
  by_cases hs : status = 0
  · subst hs
    rw [init_succeeded hl] at h
    obtain ⟨c1, h1, h2⟩ := Call.andThen_inv h
    obtain ⟨w, rfl⟩ := perform_inv h1
    cases h2
    exact .inr ⟨w, by rw [emit_emit]; rfl⟩
  · rw [init_failed hl hs] at h
    cases h
    exact .inl rfl

theorem init_stuck {status : Int} (h : c.init status = .fault (.waitsForever c')) :
    ∃ sent, c' = { c.emit (sent ++ [.waitIdle]) with waitsLeft := some 0 } := by
  by_cases hl : c.lifecycle = .active
  · rw [init_active hl] at h; cases h
  by_cases hs : status = 0
  · subst hs
    rw [init_succeeded hl] at h
    rcases Call.andThen_stuck h with h | ⟨_, -, h⟩
    · obtain ⟨sent, rfl⟩ := perform_stuck h
      exact ⟨.moduleInit :: sent, by rw [emit_emit]; rfl⟩
    · cases h
  · rw [init_failed hl hs] at h
    cases h

/-! ### Construction (R112) -/

/-- Either value of `RF_ORIENT_INIT` gives one of the two sizes. -/
theorem create_frameOk (block : State) (waitsLeft : Option Nat) : (create block waitsLeft).frameOk := by
  unfold create frameOk
  split_ifs
  · exact ⟨Raster.uniform_wf _ _ _, .inr ⟨rfl, rfl⟩⟩
  · exact ⟨Raster.uniform_wf _ _ _, .inl ⟨rfl, rfl⟩⟩

/-! ### `clear` (R114) -/

theorem clear_answers (hl : c.lifecycle = .active) (fill : Byte) (h : c.waitsLeft ≠ some 0) :
    ∃ calls w, c.clear fill = .next ({ c.emit calls with
      retained := Raster.uniform Config.panelW Config.panelH fill, waitsLeft := w }, .returned) := by
  unfold clear
  rw [whenActive_eq hl]
  obtain ⟨w, hw⟩ := updatePanel_answers (modeOf_modeCode .monochrome) _ _ h
  exact ⟨_, w, hw⟩

theorem clear_hangs (hl : c.lifecycle = .active) (fill : Byte) (h : c.waitsLeft = some 0) :
    ∃ c', c.clear fill = .fault (.waitsForever c') := by
  unfold clear
  rw [whenActive_eq hl]
  exact updatePanel_hangs (modeOf_modeCode .monochrome) _ _ h

/-- All that `clear` can answer. -/
theorem clear_inv {fill : Byte} {r : Controller × CallResult} (h : c.clear fill = .next r) :
    ∃ calls w, r = ({ c.emit calls with
      retained := Raster.uniform Config.panelW Config.panelH fill, waitsLeft := w }, .returned) := by
  obtain ⟨hl, -⟩ := whenActive_inv h
  by_cases h0 : c.waitsLeft = some 0
  · obtain ⟨c', hc⟩ := clear_hangs hl fill h0
    rw [hc] at h; cases h
  · obtain ⟨calls, w, hc⟩ := clear_answers hl fill h0
    rw [hc] at h; cases h
    exact ⟨calls, w, rfl⟩

theorem clear_stuck {fill : Byte} (h : c.clear fill = .fault (.waitsForever c')) :
    ∃ sent, c' = c.emit (sent ++ refresh) := by
  obtain ⟨mode, -, rfl⟩ := updatePanel_stuck (whenActive_stuck h)
  exact ⟨_, rfl⟩

/-! ### `sleep` (R118) -/

theorem sleep_answers (hl : c.lifecycle = .active) (h : c.waitsLeft = none) :
    ∃ c', c.sleep = .next (c', .returned) ∧ c'.lifecycle = .sleeping := by
  unfold sleep
  rw [whenActive_eq hl]
  rcases c.perform_cases Config.sleepSequence with ⟨w, hw, hp⟩ | ⟨hn, -⟩
  · have hend : ({ c.emit Config.sleepSequence with waitsLeft := w } : Controller).waitsLeft ≠ some 0 := by
      simp [hw h]
    obtain ⟨w', he⟩ := waitIdle_answers hend
    rw [hp, Call.andThen_next, he]
    exact ⟨_, rfl, rfl⟩
  · exact absurd h hn

theorem sleep_hangs (hl : c.lifecycle = .active) (h : c.waitsLeft = some 0) :
    ∃ c', c.sleep = .fault (.waitsForever c') := by
  unfold sleep
  rw [whenActive_eq hl]
  rcases c.perform_cases Config.sleepSequence with ⟨w, -, hp⟩ | ⟨-, sent, hp⟩
  · rw [hp, Call.andThen_next, waitIdle_hangs (perform_waitsLeft_zero h hp)]
    exact ⟨_, rfl⟩
  · rw [hp]
    exact ⟨_, rfl⟩

/-- `sleep` leaves the Retained Frame. -/
theorem sleep_retained {r : Controller × CallResult} (h : c.sleep = .next r) :
    r.1.retained = c.retained := by
  obtain ⟨-, h⟩ := whenActive_inv h
  obtain ⟨c1, h1, h⟩ := Call.andThen_inv h
  obtain ⟨c2, h2, h⟩ := Call.andThen_inv h
  obtain ⟨w1, rfl⟩ := perform_inv h1
  obtain ⟨w2, rfl⟩ := waitIdle_inv h2
  cases h
  rfl

theorem sleep_stuck (h : c.sleep = .fault (.waitsForever c')) :
    ∃ sent w, c' = { c.emit (sent ++ [.waitIdle]) with waitsLeft := w } := by
  rcases Call.andThen_stuck (whenActive_stuck h) with h | ⟨c1, h1, h⟩
  · obtain ⟨sent, rfl⟩ := perform_stuck h
    exact ⟨sent, _, rfl⟩
  · obtain ⟨w, rfl⟩ := perform_inv h1
    rcases Call.andThen_stuck h with h | ⟨_, -, h⟩
    · have hc := waitIdle_stuck h
      exact ⟨Config.sleepSequence, w, hc.trans (by simp [emit])⟩
    · cases h

end Sys2Proof.Machine.Controller
end

section
/-! PROOFS. The resolver call and the encoder calls of the two display calls, and how far each of these
comes (spec/45_host_controller.md R115 to R119). -/

namespace Sys2Proof.Machine

/-! ### The resolver call (R119 step 2) -/

/-- A number that a register holds is read back as it is. -/
theorem toNat_ofNat_word {n : Nat} (h : n < 65536) : (BitVec.ofNat 16 n).toNat = n :=
  Nat.mod_eq_of_lt h

/-- The operands the host writes for the resolver. -/
def State.forResolve (b : State) (frame pic : Raster) (x y : Nat) : State :=
  { b with res := ⟨BitVec.ofNat 16 x, BitVec.ofNat 16 y, BitVec.ofNat 16 pic.width,
      BitVec.ofNat 16 pic.height, BitVec.ofNat 16 frame.width, BitVec.ofNat 16 frame.height⟩ }

/-- The image, pasted at `(x, y)`, has an aligned window inside the panel, in the coordinates of a frame of
either orientation (R93, R94). -/
def Raster.windowFits (frame pic : Raster) (x y : Nat) : Prop :=
  (frame.width = 400 → roundDown8 x + roundUp8 pic.width - 1 ≤ 399 ∧ y + pic.height - 1 ≤ 299) ∧
  (frame.width = 300 → roundDown8 y + roundUp8 pic.height - 1 ≤ 399 ∧ x + pic.width - 1 ≤ 299)

/-- The sizes of a Retained Frame (R112). -/
def Raster.frameSized (r : Raster) : Prop :=
  r.width = 400 ∧ r.height = 300 ∨ r.width = 300 ∧ r.height = 400

section Resolver
variable {frame pic : Raster} {x y : Nat}

/-- A resolver call of representable operands is `RES` on them. -/
theorem resolveOnBlock_eq (b : State) (hx : x < 65536) (hy : y < 65536) (hpw : pic.width < 65536)
    (hph : pic.height < 65536) (hfw : frame.width < 65536) (hfh : frame.height < 65536) :
    resolveOnBlock b frame pic x y = onBlock (exec .res (b.forResolve frame pic x y)) := by
  unfold resolveOnBlock
  rw [toWord_eq hx, toWord_eq hy, toWord_eq hpw, toWord_eq hph, toWord_eq hfw, toWord_eq hfh]
  simp only [Call.andThen_next]
  rw [runAll_append, ← command_of_decode decode_commandOf_res]
  exact congrArg onBlock (runAll_single _ _)

variable (hframe : frame.frameSized) (hw : 1 ≤ pic.width) (hh : 1 ≤ pic.height)
  (hfit : frame.windowFits pic x y)
include hframe hw hh hfit

/-- An image that fits has coordinates and sizes that the registers hold. -/
theorem Raster.windowFits.representable :
    x < 65536 ∧ y < 65536 ∧ pic.width < 65536 ∧ pic.height < 65536 := by
  obtain ⟨hn, ht⟩ := hfit
  unfold roundDown8 roundUp8 at hn ht
  rcases hframe with ⟨hfw, -⟩ | ⟨hfw, -⟩
  · have := hn hfw; omega
  · have := ht hfw; omega

/-- The window that `RES` computes for an image that fits does not pass the panel's edge (R96). -/
theorem State.forResolve_inside (b : State) :
    pastEdge (alignedWindow (b.forResolve frame pic x y).res) = false := by
  obtain ⟨hx, hy, hpw, hph⟩ := hfit.representable hframe hw hh
  obtain ⟨hn, ht⟩ := hfit
  rw [← Bool.not_eq_true, pastEdge_alignedWindow]
  simp only [State.windowXEnd, State.windowYEnd, State.frameIsTransposed, State.forResolve,
    toNat_ofNat_word hx, toNat_ofNat_word hy, toNat_ofNat_word hpw, toNat_ofNat_word hph]
  rcases hframe with ⟨hfw, hfh⟩ | ⟨hfw, hfh⟩ <;> simp only [hfw, hfh]
  · have := hn hfw
    rw [if_neg (by decide), if_neg (by decide)]
    omega
  · have := ht hfw
    rw [if_pos (by decide), if_pos (by decide)]
    omega

/-- The resolver accepts an image that fits, and its results keep R99. -/
theorem resolveOnBlock_completes (b : State) :
    ∃ t, resolveOnBlock b frame pic x y = .next t ∧ t.status.err = none ∧ t.win.guaranteed ∧
      t.faulted = b.faulted := by
  obtain ⟨hx, hy, hpw, hph⟩ := hfit.representable hframe hw hh
  obtain ⟨hfw, hfh⟩ : frame.width < 65536 ∧ frame.height < 65536 := by
    unfold Raster.frameSized at hframe
    omega
  have hw' : 1 ≤ (b.forResolve frame pic x y).res.picW.toNat := (toNat_ofNat_word hpw).symm ▸ hw
  have hh' : 1 ≤ (b.forResolve frame pic x y).res.picH.toNat := (toNat_ofNat_word hph).symm ▸ hh
  have he := State.forResolve_inside hframe hw hh hfit b
  refine ⟨(b.forResolve frame pic x y).completeResolve
    (alignedWindow (b.forResolve frame pic x y).res).toRegs, ?_, rfl,
    alignedWindow_guaranteed hw' hh' he, rfl⟩
  rw [resolveOnBlock_eq b hx hy hpw hph hfw hfh]
  exact congrArg onBlock (resolveUnder_completes (map := .swap) ⟨hw', hh'⟩ he)

end Resolver

/-! ### The crop rectangle and the encoder calls (R115, R119 steps 3 to 6) -/

theorem State.rect_transposed {b : State} (h : b.frameIsTransposed) :
    b.rect = (b.win.winY.toNat, b.win.winX.toNat, b.win.picHAl.toNat, b.win.picWAl.toNat) :=
  if_pos ((frameTransposed_iff b).2 h)

theorem State.rect_normal {b : State} (h : ¬ b.frameIsTransposed) :
    b.rect = (b.win.winX.toNat, b.win.winY.toNat, b.win.picWAl.toNat, b.win.picHAl.toNat) :=
  if_neg (mt (frameTransposed_iff b).1 h)

/-- The crop's sizes are the window's, in one order or the other. -/
theorem State.rect_sizes (b : State) :
    b.rect.2.2.1 = b.win.picWAl.toNat ∧ b.rect.2.2.2 = b.win.picHAl.toNat ∨
      b.rect.2.2.1 = b.win.picHAl.toNat ∧ b.rect.2.2.2 = b.win.picWAl.toNat := by
  by_cases h : b.frameIsTransposed
  · rw [State.rect_transposed h]; exact .inr ⟨rfl, rfl⟩
  · rw [State.rect_normal h]; exact .inl ⟨rfl, rfl⟩

theorem State.rect_representable (b : State) : b.rect.2.2.1 < 65536 ∧ b.rect.2.2.2 < 65536 := by
  have := b.rect_sizes
  omega

theorem Raster.crop_wf (r : Raster) (left top w h : Nat) : (r.crop left top w h).wf :=
  Raster.tabulate_wf _ _ _

/-- Sizes that match in one of the two senses have an orientation (R68). -/
theorem orientation_of_match {sw sh w h : Nat} (hm : sw = w ∧ sh = h ∨ sw = h ∧ sh = w) :
    ∃ o, orientation sw sh w h = some o := by
  by_cases hd : sw = w ∧ sh = h
  · exact ⟨_, orientation_direct hd⟩
  · exact ⟨_, orientation_rotated hd (hm.resolve_left hd)⟩

/-- The encoder takes a raster of either frame size. -/
theorem encodeOnBlock_frame (b : State) {r : Raster} (hr : r.wf) (hsize : r.frameSized) {m : BitVec 4}
    {mode : Mode} (hm : modeOf m = some mode) :
    ∃ p0 p1 b', encodeOnBlock b r Config.panelW Config.panelH m = .next (.planes p0 p1 b') ∧
      b'.faulted = b.faulted := by
  obtain ⟨o, ho⟩ := orientation_of_match hsize
  unfold Raster.frameSized at hsize
  exact encodeOnBlock_completes b hr hm (by omega) (by omega) (by decide) (by decide) ho (by decide)
    (by decide)

/-- The encoder takes the crop of any raster to the resolved window, whatever block it runs on. -/
theorem encodeOnBlock_crop {s : State} (hg : s.win.guaranteed) (b : State) (r : Raster) {m : BitVec 4}
    {mode : Mode} (hm : modeOf m = some mode) :
    ∃ p0 p1 b', encodeOnBlock b (r.crop s.rect.1 s.rect.2.1 s.rect.2.2.1 s.rect.2.2.2)
        s.win.picWAl.toNat s.win.picHAl.toNat m = .next (.planes p0 p1 b') ∧
      b'.faulted = b.faulted := by
  obtain ⟨-, h8, -, -, -, -, -, -, -, -, -, -, hcap⟩ := hg
  obtain ⟨o, ho⟩ := orientation_of_match s.rect_sizes
  obtain ⟨hw, hh⟩ := s.rect_representable
  exact encodeOnBlock_completes b (r.crop_wf _ _ _ _) hm hw hh (BitVec.isLt _) (BitVec.isLt _) ho h8 hcap

/-! ### The two display calls -/

namespace Controller

variable {c c' : Controller}

/-- `displayFrame` comes to its last step, and the host has read nothing that holds no value. -/
theorem displayFrame_shows (hl : c.lifecycle = .active) (hframe : c.frameOk) {raster : Raster}
    (hr : raster.wf) (hsize : raster.frameSized) {m : BitVec 4} {mode : Mode}
    (hm : modeOf m = some mode) :
    ∃ b plane0 plane1, c.displayFrame raster m = c.showFrame b m raster plane0 plane1 ∧
      b.faulted = c.block.faulted := by
  obtain ⟨new0, new1, b, hnew, hb⟩ := encodeOnBlock_frame c.block hr hsize hm
  obtain ⟨hwf, hretained⟩ := hframe
  obtain ⟨old0, old1, b', hold, hb'⟩ := encodeOnBlock_frame b hwf hretained hm
  unfold displayFrame
  rw [whenActive_eq hl, hnew, Call.andThen_next]
  by_cases hp : m = modeCode .partialRefresh
  · exact ⟨b', old0, new1, by simp only [if_pos hp, hold, Call.andThen_next], hb'.trans hb⟩
  · exact ⟨b, new0, new1, if_neg hp, hb⟩

/-- The last step of `displayFrame` is an update of the panel, and leaves the block. -/
theorem showFrame_returns_or_hangs {m : BitVec 4} {mode : Mode} (hm : modeOf m = some mode) (b : State)
    (raster : Raster) (plane0 plane1 : List Byte) :
    (c.waitsLeft ≠ some 0 → ∃ c', c.showFrame b m raster plane0 plane1 = .next (c', .returned) ∧
      c'.block = b) ∧
    (c.waitsLeft = some 0 →
      ∃ c', c.showFrame b m raster plane0 plane1 = .fault (.waitsForever c')) :=
  updatePanel_returns_or_hangs (c := { c with block := b }) hm _ _ fun _ => rfl

/-- The last step of `partialDisplayFrame` is an update of the panel, and leaves the block. -/
theorem showWindow_returns_or_hangs {m : BitVec 4} {mode : Mode} (hm : modeOf m = some mode) (b : State)
    (composite : Raster) (w : WinRegs) (plane0 plane1 : List Byte) :
    (c.waitsLeft ≠ some 0 → ∃ c', c.showWindow b m composite w plane0 plane1 = .next (c', .returned) ∧
      c'.block = b) ∧
    (c.waitsLeft = some 0 →
      ∃ c', c.showWindow b m composite w plane0 plane1 = .fault (.waitsForever c')) :=
  updatePanel_returns_or_hangs (c := { c with block := b }) hm _ _ fun _ => rfl

section PartialDisplay
variable {raster : Raster} {x y : Nat} {m : BitVec 4} (hl : c.lifecycle = .active) (hframe : c.frameOk)
  (hr : raster.wf) (hw : 1 ≤ raster.width) (hh : 1 ≤ raster.height)
  (hfit : c.retained.windowFits raster x y)
include hl hframe hr hw hh hfit

/-- `partialDisplayFrame` comes to its last step, and the host has read nothing that holds no value. -/
theorem partialDisplayFrame_shows (hm : m = modeCode .partialRefresh ∨ m = modeCode .fast) :
    ∃ b composite w plane0 plane1,
      c.partialDisplayFrame raster x y m = c.showWindow b m composite w plane0 plane1 ∧
      b.faulted = c.block.faulted := by
  have hmode : ∃ mode, modeOf m = some mode := by
    rcases hm with rfl | rfl <;> exact ⟨_, modeOf_modeCode _⟩
  have hmeaningful : ¬ (m = modeCode .monochrome ∨ m = modeCode .fourGray) := by
    rcases hm with rfl | rfl <;> decide
  obtain ⟨mode, hmode⟩ := hmode
  obtain ⟨b, hres, herr, hg, hb⟩ := resolveOnBlock_completes hframe.2 hw hh hfit c.block
  obtain ⟨old0, old1, b', hold, hb'⟩ := encodeOnBlock_crop hg b c.retained hmode
  obtain ⟨new0, new1, b'', hnew, hb''⟩ := encodeOnBlock_crop hg b' (c.retained.paste raster x y) hmode
  refine ⟨b'', c.retained.paste raster x y, b.win, old0, new1, ?_, hb''.trans (hb'.trans hb)⟩
  unfold State.rect at hold hnew
  unfold partialDisplayFrame
  rw [whenActive_eq hl, if_neg hmeaningful, if_pos hr, hres]
  simp only [Call.andThen_next, herr, hold, hnew]

/-- With an unrecognised mode the first encoder call raises the error, once the resolver is through. -/
theorem partialDisplayFrame_invalidMode (hm : 4 ≤ m.toNat) :
    ∃ c', c.partialDisplayFrame raster x y m = .next (c', .raised .invalidMode) := by
  have hmode := modeOf_reserved hm
  have hmeaningful : ¬ (m = modeCode .monochrome ∨ m = modeCode .fourGray) := by
    rintro (rfl | rfl) <;> simp at hmode
  obtain ⟨b, hres, herr, -, -⟩ := resolveOnBlock_completes hframe.2 hw hh hfit c.block
  have hold := encodeOnBlock_invalidMode b
    (c.retained.crop_wf b.rect.1 b.rect.2.1 b.rect.2.2.1 b.rect.2.2.2) hmode b.rect_representable.1
    b.rect_representable.2 b.win.picWAl.isLt b.win.picHAl.isLt
  unfold State.rect at hold
  unfold partialDisplayFrame
  rw [whenActive_eq hl, if_neg hmeaningful, if_pos hr, hres]
  simp only [Call.andThen_next, herr, hold]
  exact ⟨_, rfl⟩

end PartialDisplay

/-- With an unrecognised mode the first encoder call raises the error. -/
theorem displayFrame_invalidMode (hl : c.lifecycle = .active) {raster : Raster} (hr : raster.wf)
    (hw : raster.width < 65536) (hh : raster.height < 65536) {m : BitVec 4} (hm : 4 ≤ m.toNat) :
    ∃ c', c.displayFrame raster m = .next (c', .raised .invalidMode) := by
  unfold displayFrame
  rw [whenActive_eq hl, encodeOnBlock_invalidMode c.block hr (modeOf_reserved hm) hw hh (by decide)
    (by decide)]
  exact ⟨_, rfl⟩

/-- A raster whose encoder call gave planes for the panel's size is of one of the two sizes. -/
theorem frameSized_of_planes {b b' : State} {raster : Raster} {m : BitVec 4} {p0 p1 : List Byte}
    (h : encodeOnBlock b raster Config.panelW Config.panelH m = .next (.planes p0 p1 b')) :
    raster.wf ∧ raster.frameSized := by
  obtain ⟨hwf, -, o, ho⟩ := encodeOnBlock_planes h
  refine ⟨hwf, ?_⟩
  by_contra hs
  have hnone : orientation raster.width raster.height Config.panelW Config.panelH = none :=
    orientation_none.2 (not_or.1 hs)
  rw [hnone] at ho
  cases ho

/-- The two ways in which `displayFrame` answers: an error, or the raster, of a frame's size, displayed. -/
theorem displayFrame_inv {raster : Raster} {m : BitVec 4} {r : Controller × CallResult}
    (h : c.displayFrame raster m = .next r) :
    (∃ e b, r = ({ c with block := b }, .raised e)) ∨
      (raster.wf ∧ raster.frameSized ∧ ∃ calls b w,
        r = ({ c.emit calls with block := b, retained := raster, waitsLeft := w }, .returned)) := by
  obtain ⟨-, herr | ⟨_, _, _, _, _, henc, -, hr⟩⟩ := displayFrame_cases h
  · exact .inl herr
  · obtain ⟨hwf, hsize⟩ := frameSized_of_planes henc
    refine .inr ⟨hwf, hsize, ?_⟩
    obtain ⟨-, hr⟩ | ⟨-, _, _, _, -, hr⟩ := hr
    · exact ⟨_, _, _, hr⟩
    · exact ⟨_, _, _, hr⟩

/-- The two ways in which `partialDisplayFrame` answers: an error, or the composite displayed. -/
theorem partialDisplayFrame_inv {raster : Raster} {x y : Nat} {m : BitVec 4}
    {r : Controller × CallResult} (h : c.partialDisplayFrame raster x y m = .next r) :
    (∃ e b, r = ({ c with block := b }, .raised e)) ∨
      ∃ calls b w, r = ({ c.emit calls with
        block := b, retained := c.retained.paste raster x y, waitsLeft := w }, .returned) := by
  obtain ⟨-, -, herr | ⟨_, _, _, _, _, _, _, _, _, -, -, -, -, -, -, hr⟩⟩ :=
    partialDisplayFrame_cases h
  · exact .inl herr
  · exact .inr ⟨_, _, _, hr⟩

end Controller

end Sys2Proof.Machine
end

section
/-! PROOFS. The obligations of spec/45_host_controller.md. -/

namespace Sys2Proof.Machine

open Controller

/-- Settles O47: a transaction answers exactly when it has a meaning, and then keeps a run without a fault
free of one exactly when its read finds a value. -/
theorem stepsGoOnExactlyUnderTheHostsDuty : Obligations.StepsGoOnExactlyUnderTheHostsDuty := by
  intro s a rest hs
  rw [step_cons hs]
  have hanswers := transact_answers_iff a { s with script := rest }
  refine ⟨hanswers, fun hf => ⟨?_, ?_⟩⟩
  · rintro ⟨t, ht, htf⟩
    exact ⟨hanswers.1 ⟨t, ht⟩, (transact_faulted_iff ht hf).1 htf⟩
  · rintro ⟨hadm, hreads⟩
    obtain ⟨t, ht⟩ := hanswers.2 hadm
    exact ⟨t, ht, (transact_faulted_iff ht hf).2 hreads⟩

/-- Settles O51: the answer with an error differs from the controller before the call in the block
alone. -/
theorem abortedCallSendsNothing : Obligations.AbortedCallSendsNothing := by
  rintro c c' raster x y m e (h | h)
  · obtain ⟨_, b, hr⟩ | ⟨-, -, _, _, _, hr⟩ := displayFrame_inv h <;> cases hr
    exact ⟨rfl, rfl, rfl, rfl⟩
  · obtain ⟨_, b, hr⟩ | ⟨_, _, _, hr⟩ := partialDisplayFrame_inv h <;> cases hr
    exact ⟨rfl, rfl, rfl, rfl⟩

/-- Settles O52: the first encoder call of either display call looks at the mode first. -/
theorem unrecognisedModeIsInvalidMode : Obligations.UnrecognisedModeIsInvalidMode := by
  intro c raster x y m hl hr hm
  exact ⟨fun hw hh => displayFrame_invalidMode hl hr hw hh hm,
    fun hframe hw hh hn ht => partialDisplayFrame_invalidMode hl hframe hr hw hh ⟨hn, ht⟩ hm⟩

/-- Settles O54: a call that waits for ever has changed nothing but the calls made, the block and the count
of waits. -/
theorem endlessWaitIsStuck : Obligations.EndlessWaitIsStuck := by
  intro c raster x y m fill status
  refine ⟨fun hl h0 => ⟨clear_hangs hl fill h0, sleep_hangs hl h0⟩, ?_⟩
  rintro c' (h | h | h | h | h)
  · obtain ⟨sent, rfl⟩ := init_stuck h
    exact ⟨rfl, rfl, sent, (List.append_assoc ..).symm⟩
  · obtain ⟨sent, rfl⟩ := clear_stuck h
    exact ⟨rfl, rfl, _, append_refresh _ _⟩
  · obtain ⟨b, sent, rfl⟩ := displayFrame_stuck h
    exact ⟨rfl, rfl, _, append_refresh _ _⟩
  · obtain ⟨b, sent, rfl⟩ := partialDisplayFrame_stuck h
    exact ⟨rfl, rfl, _, append_refresh _ _⟩
  · obtain ⟨sent, w, rfl⟩ := sleep_stuck h
    exact ⟨rfl, rfl, sent, (List.append_assoc ..).symm⟩

/-- Settles O55: pasting keeps the sizes, and the encoder takes a raster only in one of the two. -/
theorem retainedFrameKeepsOneOfTwoSizes : Obligations.RetainedFrameKeepsOneOfTwoSizes := by
  refine ⟨create_frameOk, ?_⟩
  rintro c r raster x y m fill status hframe (h | h | h | h | h)
  · obtain rfl | ⟨w, rfl⟩ := init_inv h
    · exact hframe
    · exact hframe
  · obtain ⟨_, _, rfl⟩ := clear_inv h
    exact ⟨Raster.uniform_wf _ _ _, .inl ⟨rfl, rfl⟩⟩
  · obtain ⟨_, _, rfl⟩ | ⟨hwf, hsize, _, _, _, rfl⟩ := displayFrame_inv h
    · exact hframe
    · exact ⟨hwf, hsize⟩
  · obtain ⟨_, _, rfl⟩ | ⟨_, _, _, rfl⟩ := partialDisplayFrame_inv h
    · exact hframe
    · exact ⟨Raster.tabulate_wf _ _ _, hframe.2⟩
  · rw [frameOk, sleep_retained h]
    exact hframe

/-- Settles O56: the call comes to its last step, whose wait then decides. -/
theorem displayFrameCompletes : Obligations.DisplayFrameCompletes := by
  intro c raster m hl hframe hr hsize hm
  obtain ⟨mode, hmode⟩ := modeOf_of_le hm
  obtain ⟨b, plane0, plane1, hshow, hb⟩ := displayFrame_shows hl hframe hr hsize hmode
  obtain ⟨returns, hangs⟩ := showFrame_returns_or_hangs (c := c) hmode b raster plane0 plane1
  rw [hshow]
  refine ⟨fun h0 => ?_, hangs⟩
  obtain ⟨c', hc, rfl⟩ := returns h0
  exact ⟨c', hc, hb⟩

/-- Settles O57: the resolver and both encoder calls answer, so that the call comes to its last step,
whose wait then decides. -/
theorem partialDisplayCompletes : Obligations.PartialDisplayCompletes := by
  intro c raster x y m hl hframe hr hw hh hm hn ht
  obtain ⟨mode, hmode⟩ : ∃ mode, modeOf m = some mode := by
    rcases hm with rfl | rfl <;> exact ⟨_, modeOf_modeCode _⟩
  obtain ⟨b, composite, w, plane0, plane1, hshow, hb⟩ :=
    partialDisplayFrame_shows hl hframe hr hw hh ⟨hn, ht⟩ hm
  obtain ⟨returns, hangs⟩ := showWindow_returns_or_hangs (c := c) hmode b composite w plane0 plane1
  rw [hshow]
  refine ⟨fun h0 => ?_, hangs⟩
  obtain ⟨c', hc, rfl⟩ := returns h0
  exact ⟨c', hc, hb⟩

/-- Settles O58: the frame that the answer of each call carries. -/
theorem retainedFrameFollowsTheCall : Obligations.RetainedFrameFollowsTheCall := by
  intro c c' raster x y m fill
  refine ⟨fun h => ?_, fun h => ?_, fun h => ?_⟩
  · obtain ⟨_, _, hr⟩ | ⟨-, -, _, _, _, hr⟩ := displayFrame_inv h <;> cases hr
    rfl
  · obtain ⟨_, _, hr⟩ | ⟨_, _, _, hr⟩ := partialDisplayFrame_inv h <;> cases hr
    rfl
  · obtain ⟨_, _, hr⟩ := clear_inv h
    cases hr
    rfl

/-- Settles O59: in Partial mode the answer is the one with a second encoder call. -/
theorem partialDisplayStreamsOldAndNew : Obligations.PartialDisplayStreamsOldAndNew := by
  intro c c' raster h
  obtain ⟨-, ⟨_, _, hr⟩ | ⟨new0, new1, b, mode, w, hnew, hmode, hr⟩⟩ := displayFrame_cases h
  · cases hr
  rw [modeOf_modeCode] at hmode
  cases hmode
  obtain ⟨hne, -⟩ | ⟨-, old0, old1, b', hold, hr⟩ := hr
  · exact absurd rfl hne
  cases hr
  exact ⟨new0, new1, old0, old1, b, b', hnew, hold, rfl⟩

/-- Settles O60: the answer of a call that returned names the blocks and planes, and the crop rectangle
follows the resolved block's orientation. -/
theorem partialUpdateStreamsOldAndNewCrops : Obligations.PartialUpdateStreamsOldAndNewCrops := by
  intro c c' raster x y m h
  obtain ⟨-, -, ⟨_, _, hr⟩ | ⟨b, b', b'', old0, old1, new0, new1, mode, w, hres, herr, hold, hnew,
    hmode, -, hr⟩⟩ := partialDisplayFrame_cases h
  · cases hr
  cases hr
  refine ⟨b, b.rect.1, b.rect.2.1, b.rect.2.2.1, b.rect.2.2.2, old0, old1, new0, new1, b', b'',
    lutCalls mode, hres, herr, fun ht => ?_, fun hn => ?_, hold, hnew, ?_, ?_⟩
  · rw [State.rect_transposed ht]
    exact ⟨rfl, rfl, rfl, rfl⟩
  · rw [State.rect_normal hn]
    exact ⟨rfl, rfl, rfl, rfl⟩
  · rw [setLut, hmode]
    rfl
  · simp [partialBody, streamPlanes, refresh, send, sendAll, PanelCommand.code]

/-- Settles O48: each code is the definition's. -/
theorem panelCodesAreTheMap : Obligations.PanelCodesAreTheMap := rfl

/-- Settles O49: the power-up is the only call made before its status is looked at. -/
theorem failedInitWritesNoRegister : Obligations.FailedInitWritesNoRegister :=
  fun _ _ hl hs => init_failed hl hs

/-- Settles O50: a mode's table is looked up by its code, and 4 to 15 have none. -/
theorem lutLoadingFollowsTheMode : Obligations.LutLoadingFollowsTheMode := by
  intro m
  refine ⟨?_, fun hm => ?_, rfl, rfl, rfl, rfl⟩
  · rintro mode rfl
    rw [setLut, modeOf_modeCode]
    rfl
  · rw [setLut, modeOf_reserved hm]
    rfl

/-- Settles O53: outside Active the four calls are refused; in Active each call's answer carries the
lifecycle. -/
theorem callsFollowTheLifecycle : Obligations.CallsFollowTheLifecycle := by
  intro c raster x y m fill
  refine ⟨fun hl => ⟨fun h0 => init_answers hl h0, whenActive_refuses hl _, whenActive_refuses hl _,
    whenActive_refuses hl _, whenActive_refuses hl _⟩, fun hl => ⟨fun h0 => ?_, sleep_answers hl⟩, ?_⟩
  · obtain ⟨calls, w, h⟩ := clear_answers hl fill h0
    exact ⟨_, h, hl⟩
  · rintro r (h | h)
    · have hl := (displayFrame_cases h).1
      obtain ⟨_, _, rfl⟩ | ⟨-, -, _, _, _, rfl⟩ := displayFrame_inv h
      · exact hl
      · exact hl
    · have hl := (partialDisplayFrame_cases h).1
      obtain ⟨_, _, rfl⟩ | ⟨_, _, _, rfl⟩ := partialDisplayFrame_inv h
      · exact hl
      · exact hl

end Sys2Proof.Machine
end

section
/-! PROOFS. What a transaction does to `ERR_LATCH` and to the fault bit of the run (spec/60_exceptions.md
sections 4 and 6). -/

namespace Sys2Proof.Machine

/-! ### An illegal byte (R146) -/

theorem command_of_rejected {c : Byte} (h : decode c = .rejected .illegalCommand) (s : State) :
    command c s = .next (s.raise .illegalCommand) := by unfold command; rw [h]

/-! ### The latch (R12, R149) -/

/-- An error sets the latch, and a success leaves it as it was. -/
theorem exec_keeps_errLatch {i : Instr} {s t : State} (h : exec i s = .next t)
    (hl : s.status.errLatch = true) : t.status.errLatch = true := by
  rcases exec_cases h with ⟨e, -, -, -, rfl⟩ | ⟨-, -, mode, o, -, rfl⟩ | ⟨-, -, -, rfl⟩
  · exact Status.raise_errLatch e s.status
  · exact hl
  · exact hl

theorem command_keeps_errLatch {c : Byte} {s t : State} (h : command c s = .next t)
    (hl : s.status.errLatch = true) : t.status.errLatch = true := by
  rcases command_cases c s with ⟨i, -, hi⟩ | ⟨-, hi⟩ <;> rw [hi] at h
  · exact exec_keeps_errLatch h hl
  · cases h; exact Status.raise_errLatch _ s.status

/-- Beside the commands, the reset alone writes `STATUS`. -/
theorem transact_keeps_errLatch {a : Transaction} {s t : State} (h : transact a s = .next t)
    (ha : a ≠ .reset) (hl : s.status.errLatch = true) : t.status.errLatch = true := by
  rcases transact_cases h with ⟨-, c, hc⟩ | ⟨-, r, v, rfl⟩ | ⟨found, u, -, rfl⟩ |
    ⟨-, k, v, -, rfl⟩ | ⟨-, rfl⟩ | ⟨hreset, -⟩
  · exact command_keeps_errLatch hc hl
  · rwa [State.writeReg_status]
  · exact hl
  · exact hl
  · exact hl
  · exact absurd hreset ha

/-! ### The fault bit (spec/93_implementation_defined.md Part 1, U5 to U7) -/

theorem transact_keeps_faulted {a : Transaction} {s t : State} (h : transact a s = .next t)
    (hf : s.faulted = true) : t.faulted = true := by
  rcases transact_cases h with ⟨-, c, hc⟩ | ⟨-, r, v, rfl⟩ | ⟨found, u, -, rfl⟩ |
    ⟨-, k, v, -, rfl⟩ | ⟨-, rfl⟩ | ⟨-, rfl⟩
  · exact (command_faulted hc).trans hf
  · exact (s.writeReg_faulted r v).trans hf
  · rw [State.giveFound_faulted, hf, Bool.or_true]
  · exact hf
  · exact hf
  · exact hf

/-- The fault bit is set afterwards when it was before, or when the transaction read what holds no value. -/
theorem transact_faulted_eq_true_iff {a : Transaction} {s t : State} (h : transact a s = .next t) :
    t.faulted = true ↔ s.faulted = true ∨ ¬ readsValue a s := by
  cases hf : s.faulted with
  | true => exact iff_of_true (transact_keeps_faulted h hf) (.inl rfl)
  | false => simp [← transact_faulted_iff h hf]

/-- The two reads that may find no value. -/
theorem not_readsValue_iff (a : Transaction) (s : State) : ¬ readsValue a s ↔
    (∃ n, a = .rd n ∧ 12 ≤ n ∧ s.status.resValid = false) ∨
    (∃ p k, a = .rp p k ∧ (s.status.pValid = false ∨ (s.plane p).read k = none)) := by
  cases a with
  | rd n => simp
  | rp p k => simp [Classical.or_iff_not_imp_left]
  | _ => simp

end Sys2Proof.Machine
end

section
/-! PROOFS. The obligations of spec/60_exceptions.md. -/

namespace Sys2Proof.Machine

/-- Settles O12: of the three ways in which a command answers, the two successes leave `ERR = 0`, and an
error is raised in `STATUS` alone. -/
theorem errorsChangeOnlyStatus : Obligations.ErrorsChangeOnlyStatus := by
  intro i s t h herr
  rcases exec_cases h with ⟨e, -, -, -, rfl⟩ | ⟨-, -, mode, o, -, rfl⟩ | ⟨-, -, -, rfl⟩
  · rfl
  · exact absurd rfl herr
  · exact absurd rfl herr

/-- Settles O13: the step is idle, or a transaction other than the reset. -/
theorem latchStaysUntilReset : Obligations.LatchStaysUntilReset := by
  intro s t h hreset hl
  cases hs : s.script with
  | nil =>
    rw [step_nil hs] at h
    cases h
    exact hl
  | cons a rest =>
    rw [step_cons hs] at h
    have ha : a ≠ .reset := fun he => hreset rest (he ▸ hs)
    exact transact_keeps_errLatch h ha hl

/-- Settles O41: a transaction never clears the bit, and sets it when it reads what holds no value. -/
theorem faultBitRecordsReadsOfNoValue : Obligations.FaultBitRecordsReadsOfNoValue := by
  refine fun s t h => ⟨fun hs => ?_, fun a rest hs => ?_⟩
  · rw [step_nil hs] at h
    cases h
    rfl
  · rw [step_cons hs] at h
    rw [transact_faulted_eq_true_iff h, not_readsValue_iff]
    exact Iff.rfl

/-- Settles O8: either write comes to `command`, which the decoder's reject ends. -/
theorem illegalByteRaisesIllegalCommand : Obligations.IllegalByteRaisesIllegalCommand := by
  intro s c rest hs hc
  obtain ⟨-, -, -, hrange⟩ := decoderFollowsTheOpcodeMap c
  have hd : decode c = .rejected .illegalCommand := hrange.2 (by omega)
  rcases hs with hs | hs <;> rw [step_cons hs]
  · exact command_of_rejected hd _
  · rw [transact_wr_cmd]
    exact command_of_rejected hd _

/-- Settles O9: for each kind, the new `STATUS` and the code are those of the definitions. -/
theorem raisingWritesErrLatchAndValidBit : Obligations.RaisingWritesErrLatchAndValidBit :=
  fun _ => ⟨⟨rfl, rfl⟩, ⟨rfl, rfl⟩, ⟨rfl, rfl⟩, rfl, rfl⟩

/-- Settles O11: the mode is one of the four, and the sizes are compared before R69 asks anything of them. -/
theorem mismatchedSizesRaiseSizeMismatch : Obligations.MismatchedSizesRaiseSizeMismatch := by
  intro i mode s hi hm
  rw [exec_eq_encodeMode hi, encodeMode_mismatch hm]
  rfl

end Sys2Proof.Machine
end

section
/-! PROOFS. The obligation of spec/70_reset_and_hazards.md. -/

namespace Sys2Proof.Machine

/-- The next transaction, when it is the platform's reset, answers from every state (R160). -/
theorem step_reset {s : State} {rest : List Transaction} (hs : s.script = .reset :: rest) :
    step s = .next (platformReset { s with script := rest }) := step_cons hs

/-- Settles O2: the step's answer is `platformReset`, whose fields are those of `State.reset` in the block
and the host's own in the rest. -/
theorem platformResetRestoresTheBlock : Obligations.PlatformResetRestoresTheBlock := by
  intro s rest hs
  let s₁ : State := { s with script := rest }
  exact ⟨platformReset s₁, step_reset hs, platformReset_enc s₁, platformReset_res s₁,
    platformReset_win s₁, platformReset_status s₁, platformReset_src s₁, platformReset_p0 s₁,
    platformReset_p1 s₁, platformReset_script s₁, platformReset_returned s₁,
    platformReset_faulted s₁⟩

end Sys2Proof.Machine
end

section
/-! PROOFS. The two readings of `RES_ROT_MAP` compared (spec/92_eei_decisions.md D16, spec/90_conflicts.md
C11): they differ in the rows of a window that has already passed the bounds check. -/

namespace Sys2Proof.Machine

/-! ### The cases of `RES` do not depend on the reading -/

/-- Two readings of `RES_ROT_MAP` are refused together, rejected together and completed together. -/
theorem resolveUnder_maps_agree (map map' : Config.RotMap) (s : State) :
    (resolveUnder map s = .refused .emptyPastedImage ∧
      resolveUnder map' s = .refused .emptyPastedImage) ∨
    (resolveUnder map s = .next (s.raise .regionOutOfBounds) ∧
      resolveUnder map' s = .next (s.raise .regionOutOfBounds)) ∨
    (s.imageNotEmpty ∧ pastEdge (alignedWindow s.res) = false ∧
      resolveUnder map s
        = .next (s.completeResolve (placeRows map s.res (alignedWindow s.res)).toRegs) ∧
      resolveUnder map' s
        = .next (s.completeResolve (placeRows map' s.res (alignedWindow s.res)).toRegs)) := by
  rcases resolveUnder_cases map s with ⟨hn, h⟩ | ⟨hn, he, h⟩ | ⟨hn, he, h⟩
  · exact .inl ⟨h, resolveUnder_refuses map' (by omega)⟩
  · exact .inr (.inl ⟨h, resolveUnder_rejects hn he⟩)
  · exact .inr (.inr ⟨hn, he, h, resolveUnder_completes hn he⟩)

/-- A completed `RES` is told from a rejected one by the error in `STATUS`. -/
theorem State.completeResolve_ne_raise (s : State) (w : WinRegs) (e : ErrorKind) :
    s.completeResolve w ≠ s.raise e := by
  intro h
  have herr := congrArg (fun u : State => u.status.err) h
  simp only [raise_status, Status.raise_err] at herr
  cases herr

/-! ### What `swap_flip` does to a window -/

@[simp] theorem placeRows_swap (r : ResRegs) (w : Window) : placeRows .swap r w = w := rfl

theorem placeRows_swapFlip_normal {s : State} (h : ¬ s.frameIsTransposed) (w : Window) :
    placeRows .swapFlip s.res w = w :=
  if_neg (mt (frameTransposed_iff s).1 h)

/-- Only the rows move, under either reading and in either frame. -/
theorem placeRows_toRegs (map : Config.RotMap) (r : ResRegs) (w : Window) :
    (placeRows map r w).toRegs =
      { w.toRegs with
        winY := (placeRows map r w).toRegs.winY
        winYEnd := (placeRows map r w).toRegs.winYEnd } := by
  cases map with
  | swap => rfl
  | swapFlip =>
    simp only [placeRows]
    split <;> rfl

/-- For a transposed frame the mirrored window is the aligned one with its start row counted from the
other edge. -/
theorem placeRows_swapFlip_transposed {s : State} (h : s.frameIsTransposed)
    (hw : 1 ≤ s.res.picW.toNat) (hy : s.res.xStart.toNat + s.res.picW.toNat ≤ 300) :
    placeRows .swapFlip s.res (alignedWindow s.res) =
      windowFrom (8 * (s.res.yStart.toNat / 8)) (300 - s.res.xStart.toNat - s.res.picW.toNat)
        (8 * ((s.res.picH.toNat + 7) / 8)) s.res.picW.toNat := by
  have hrows : 300 - s.res.xStart.toNat - 1
      = 300 - s.res.xStart.toNat - s.res.picW.toNat + s.res.picW.toNat - 1 := by omega
  rw [placeRows, if_pos ((frameTransposed_iff s).2 h), alignedWindow_transposed h]
  simp only [windowFrom, Config.panelH_eq, hrows]

section Flipped
variable {s : State} (hn : s.imageNotEmpty) (he : pastEdge (alignedWindow s.res) = false)
include hn he

/-- The mirrored rows in the result registers: they end inside the panel with the same height, and start
as far from the last row as the unmirrored ones from the first. -/
theorem placeRows_swapFlip_rows_transposed (ht : s.frameIsTransposed) {r : WinRegs}
    (hr : r = (placeRows .swapFlip s.res (alignedWindow s.res)).toRegs) :
    r.winYEnd.toNat ≤ 299 ∧ r.winYEnd.toNat + 1 = r.winY.toNat + r.picHAl.toNat ∧
      r.winY.toNat + s.res.xStart.toNat + s.res.picW.toNat = 300 := by
  obtain ⟨hw, hh⟩ := hn
  rw [alignedWindow_transposed ht] at he
  obtain ⟨hx, hy⟩ : 8 * (s.res.yStart.toNat / 8) + 8 * ((s.res.picH.toNat + 7) / 8) - 1 ≤ 399 ∧
      s.res.xStart.toNat + s.res.picW.toNat - 1 ≤ 299 := (pastEdge_eq_false _).1 he
  rw [placeRows_swapFlip_transposed ht hw (by omega)] at hr
  obtain ⟨-, -, -, hy', hh', hyEnd'⟩ := windowFrom_toRegs (by omega) hw hx (by omega) hr
  omega

/-- The rows of `swap_flip` in either frame (D16). -/
theorem placeRows_swapFlip_rows {r : WinRegs}
    (hr : r = (placeRows .swapFlip s.res (alignedWindow s.res)).toRegs) :
    r.winYEnd.toNat ≤ 299 ∧ r.winYEnd.toNat + 1 = r.winY.toNat + r.picHAl.toNat := by
  by_cases ht : s.frameIsTransposed
  · obtain ⟨hin, hheight, -⟩ := placeRows_swapFlip_rows_transposed hn he ht hr
    exact ⟨hin, hheight⟩
  · rw [placeRows_swapFlip_normal ht] at hr
    obtain ⟨hw, hh⟩ := hn
    obtain ⟨-, -, -, -, -, -, -, -, hin, hheight, -⟩ := alignedWindow_guaranteed hw hh he
    exact hr ▸ ⟨hin, hheight⟩

end Flipped

/-! ### The obligation -/

/-- Settles O35: where both readings refuse or both reject, the answers are the same; where both complete,
they differ by `placeRows` alone. -/
theorem swapFlipChangesTheRowsAlone : Obligations.SwapFlipChangesTheRowsAlone := by
  intro s
  rcases resolveUnder_maps_agree .swap .swapFlip s with ⟨h, h'⟩ | ⟨h, h'⟩ | ⟨hn, he, h, h'⟩ <;>
    rw [h, h']
  · exact ⟨Iff.rfl, fun _ => Iff.rfl, Iff.rfl, nofun⟩
  · refine ⟨Iff.rfl, fun _ => Iff.rfl, Iff.rfl, fun t ht herr => ?_⟩
    cases ht
    simp at herr
  · have hne : ∀ w, s.completeResolve w ≠ s.raise .regionOutOfBounds :=
      fun w => s.completeResolve_ne_raise w _
    refine ⟨iff_of_false (mt Host.Outcome.next.inj (hne _)) (mt Host.Outcome.next.inj (hne _)),
      fun _ => iff_of_false nofun nofun,
      iff_of_true ⟨_, rfl, rfl⟩ ⟨_, rfl, rfl⟩, fun t ht _ => ?_⟩
    cases ht
    obtain ⟨hin, hheight⟩ := placeRows_swapFlip_rows hn he rfl
    refine ⟨_, rfl, congrArg s.completeResolve (placeRows_toRegs .swapFlip _ _), hin, hheight,
      fun htr => ?_, fun htr => by rw [placeRows_swapFlip_normal htr, placeRows_swap]⟩
    obtain ⟨-, -, hmirror⟩ := placeRows_swapFlip_rows_transposed hn he htr rfl
    exact hmirror

end Sys2Proof.Machine
end
